-- ==== Sys2Proof/Word.lean ====
section
/-! DEFINITION. The widths of the codec (spec/00_scope.md R8): a byte, the packed value of one block, a base-85 digit. -/

namespace Sys2Proof

/-- A byte, 0..255 (R8, BYTE_WIDTH). -/
abbrev Byte := BitVec 8

/-- The packed value of one block, 32 bits, unsigned (R8, V_WIDTH). -/
abbrev Value := BitVec 32

/-- A base-85 digit, 0..84 (R8, DIGIT_WIDTH; R9 "Digit"). -/
abbrev Digit := Fin 85

end Sys2Proof
end

