-- ==== Sys2Proof/Config.lean ====
section
/-! DEFINITION. The two parameters the spec leaves open (spec/00_scope.md R8; spec/92_eei_decisions.md, "Parameters
left open") and the free value of R90. The default of ALPHABET stands in Machine/Alphabet.lean. -/

namespace Sys2Proof

/-- The content of the alphabet ROM ALPHA: 85 bytes, indexed by digit (R15). An index above 84 does not exist. -/
abbrev Alphabet := Vector Byte 85

/-- What is fixed for one codec instance. No step changes it.
`lenW` is LEN_W, the width of LEN, CAP and N; `none` is the spec's default "unbounded natural numbers" (R8, R69).
`alphabet` is ALPHABET, the content of ALPHA (R8, R15). -/
structure Config where
  lenW     : Option Nat
  alphabet : Alphabet
  deriving DecidableEq, Repr

/-- `n` is a value that LEN_W bits hold (R69). -/
def Config.fits (c : Config) (n : Nat) : Bool :=
  match c.lenW with
  | none => true
  | some w => decide (n < 2 ^ w)

/-- The free values of R90: what a byte of DST[0..4k) holds after a DECODE that failed in block k ("any value (each byte a
free draw)"). It has no body: nothing can be proved of its values. Log 10. -/
opaque Config.freeByte : Nat → Byte

end Sys2Proof
end

