-- ==== Sys2Proof/Syntax.lean ====
section
/-! DEFINITION. The four operations (spec/30_encoding.md R56) and the moves of the host (spec/70_reset_and_hazards.md R128). -/

namespace Sys2Proof

/-- The operation table of R56: exactly four operations. Their operands LEN, CAP, SRC and DST are registers and buffers
(R17, R54), so an operation has no fields of its own. -/
inductive Instr where
  | enclen
  | declen
  | encode
  | decode
  deriving DecidableEq, Repr

/-- What the host may do to an idle instance (R128, first row; R119): set the operand registers, give the two buffers,
change host memory, start an operation, reset the instance (R117). While an operation runs it has no move at all. -/
inductive HostMove where
  /-- Write the operand register OP (R17). -/
  | setOp (op : BitVec 2)
  /-- Write the operand register LEN (R17). -/
  | setLen (n : Nat)
  /-- Write the operand register CAP (R17). -/
  | setCap (n : Nat)
  /-- Give the source buffer: SRC is host memory from `base` on (R21, R28; log 4). -/
  | giveSrc (base : Nat)
  /-- Give the destination buffer: DST is host memory from `base` on (R22, R28; log 4). -/
  | giveDst (base : Nat)
  /-- Write one byte of host memory ("read or change any buffer", R128). -/
  | writeByte (a : Nat) (b : Byte)
  /-- Start the operation that OP names (R17, R128). -/
  | start
  /-- Reset the instance (R25, R117; log 18). -/
  | reset
  deriving DecidableEq, Repr

end Sys2Proof
end

