-- ==== Sys2Proof/WellFormed.lean ====
section
/-! DEFINITION. What the spec asks of an alphabet (spec/30_encoding.md R49), of LEN_W (spec/92_eei_decisions.md D4), of an
operation (R57) and of a move of the host (spec/10_state.md R17). -/

namespace Sys2Proof

/-- SPAN_MIN (R8, R50). -/
def spanMin : Nat := 33

/-- SPAN_MAX (R8, R50). -/
def spanMax : Nat := 125

/-- R49 (a), the part the type does not say: the 85 entries are distinct. -/
def Alphabet.distinct (al : Alphabet) : Bool := decide al.toList.Nodup

/-- R49 (b): the 38 digits whose character the two vectors of the source fix, each with its code (the rows of R48 marked
"pinned"). -/
def pinned : List (Digit × Byte) :=
  [(0, 48), (4, 52), (6, 54), (11, 98), (13, 100), (14, 101), (17, 104), (18, 105), (21, 108), (22, 109)] ++
  [(24, 111), (25, 112), (27, 114), (32, 119), (37, 66), (38, 67), (40, 69), (43, 72), (45, 74), (46, 75)] ++
  [(47, 76), (49, 78), (50, 79), (54, 83), (55, 84), (57, 86), (58, 87), (59, 88), (62, 46), (65, 43)] ++
  [(68, 33), (71, 63), (72, 38), (74, 62), (76, 41), (79, 123), (80, 125), (82, 37)]

/-- R49 (b): every pinned entry holds its character. -/
def Alphabet.keepsPinned (al : Alphabet) : Bool := pinned.all fun p => al[p.1] == p.2

/-- R49 (c): every code lies in the span. That 33 and 125 are reached follows from (b), which pins `!` and `}`. -/
def Alphabet.inSpan (al : Alphabet) : Bool := al.toList.all fun b => spanMin ≤ b.toNat && b.toNat ≤ spanMax

/-- R49 (d): the character with code 34 is not an entry. -/
def Alphabet.skipsQuote (al : Alphabet) : Bool := al.toList.all fun b => b != 34

/-- R49 (e): at least one code inside the span is not an entry. -/
def Alphabet.hasGap (al : Alphabet) : Bool :=
  (List.range (spanMax + 1)).any fun n => spanMin ≤ n && al.toList.all fun b => b.toNat != n

/-- R49: the well-formedness check of a model that keeps ALPHABET as an argument. -/
def Alphabet.wf (al : Alphabet) : Bool :=
  al.distinct && al.keepsPinned && al.inSpan && al.skipsQuote && al.hasGap

/-- LEN_W is "positive integer or unbounded" (92, "Parameters left open"), and the alphabet meets R49. -/
def Config.wf (c : Config) : Bool := (c.lenW != some 0) && c.alphabet.wf

/-- R57: "No OP value is reserved or illegal", and an operation has no fields: every operation is well-formed. -/
def Instr.wf : Instr → Bool
  | .enclen => true
  | .declen => true
  | .encode => true
  | .decode => true

/-- R17: LEN and CAP are LEN_W bits wide, so the host can write no other value there. -/
def HostMove.wf (c : Config) : HostMove → Bool
  | .setLen n => c.fits n
  | .setCap n => c.fits n
  | .setOp _ => true
  | .giveSrc _ => true
  | .giveDst _ => true
  | .writeByte _ _ => true
  | .start => true
  | .reset => true

end Sys2Proof
end

