-- ==== Sys2Proof/Decode.lean ====
section
/-! DEFINITION. The operation code (spec/30_encoding.md R54, R56): the decoder of OP, the decoder of a command's bytes, the
encoder. -/

namespace Sys2Proof

/-- Why a byte string names no operation. -/
inductive DecodeError where
  /-- No byte is left. -/
  | truncated
  /-- Bits 7:2 of the command's byte are not zero: OP is the field 1:0 and a command has no other (R54; log 13). -/
  | notAnOpCode (b : Byte)
  deriving DecidableEq, Repr

/-- R56: "A decoder for OP is total: every 2-bit value selects an operation." -/
def decodeOp (op : BitVec 2) : Instr :=
  match op.toNat with
  | 0 => .enclen
  | 1 => .declen
  | 2 => .encode
  | _ => .decode

/-- The operation code of R56. -/
def opCode : Instr → BitVec 2
  | .enclen => 0
  | .declen => 1
  | .encode => 2
  | .decode => 3

/-- The command's byte: OP in bits 1:0, the other bits zero (R54; log 13). -/
def opByte (op : BitVec 2) : Byte := op.setWidth 8

/-- Decode one operation from the front of a byte string and answer what is left of it. -/
def decode : List Byte → Except DecodeError (Instr × List Byte)
  | [] => .error .truncated
  | b :: rest => if b.toNat < 4 then .ok (decodeOp (b.setWidth 2), rest) else .error (.notAnOpCode b)

/-- Encode an operation: one byte. -/
def encode (i : Instr) : List Byte := [opByte (opCode i)]

/-- The bytes of a table word: byte `j` is bits `8j+7..8j`, the first at the lowest address. -/
def tableBytes : Nat → Nat → List Byte
  | 0, _ => []
  | n + 1, w => BitVec.ofNat 8 w :: tableBytes n (w / 256)

/-- What the decoder reads from an instruction whose bits are `w`, numbered as spec/opcode_table.json numbers them. A row has
2 bits, so one byte; the bits above `nbits` are zero. -/
def decodeTableWord (nbits w : Nat) : Option Instr :=
  match decode (tableBytes (max 1 ((nbits + 7) / 8)) w) with
  | .ok (i, _) => some i
  | .error _ => none

end Sys2Proof
end

