-- ==== Sys2Proof/Machine/Alphabet.lean ====
section
/-! DEFINITION. The default content of ALPHA (spec/30_encoding.md R48) and the two look-ups A2C and C2D
(spec/40_alphabet_table.md R60, R62). -/

namespace Sys2Proof.Machine

/-- Digits 0 to 9: the characters `0` to `9` (R48). -/
def alphaNumerals : List Byte := [48, 49, 50, 51, 52, 53, 54, 55, 56, 57]

/-- Digits 10 to 35: `a` to `z` (R48). -/
def alphaLower : List Byte :=
  [97, 98, 99, 100, 101, 102, 103, 104, 105, 106, 107, 108, 109] ++
  [110, 111, 112, 113, 114, 115, 116, 117, 118, 119, 120, 121, 122]

/-- Digits 36 to 61: `A` to `Z` (R48). -/
def alphaUpper : List Byte :=
  [65, 66, 67, 68, 69, 70, 71, 72, 73, 74, 75, 76, 77] ++
  [78, 79, 80, 81, 82, 83, 84, 85, 86, 87, 88, 89, 90]

/-- Digits 62 to 84, the punctuation, in the order of R48: full stop, minus, colon, plus, equals, caret, exclamation, slash,
star, question, ampersand, less, greater, the three pairs of brackets, at, percent, dollar, hash. -/
def alphaPunctuation : List Byte :=
  [46, 45, 58, 43, 61, 94, 33, 47, 42, 63, 38, 60] ++
  [62, 40, 41, 91, 93, 123, 125, 64, 37, 36, 35]

/-- The default of ALPHABET: the table of R48, index 0 first. 38 entries are pinned by the source's vectors; the other 47 the
spec marks "from general knowledge, not in source" (K1; log 3). -/
def defaultAlphabet : Alphabet :=
  ⟨(alphaNumerals ++ alphaLower ++ alphaUpper ++ alphaPunctuation).toArray, by decide⟩

/-- A2C, digit to character (R60). It is total: a digit above 84 does not exist (R61). -/
def a2c (al : Alphabet) (d : Digit) : Byte := al[d]

/-- C2D, character byte to digit or INVALID (R62), by search over ALPHA (R63: "A model may define C2D by search over
ALPHA"). INVALID is the absent digit (R65). This is the reverse ROM REV (R16). -/
def c2d (al : Alphabet) (b : Byte) : Option Digit := (List.finRange 85).find? fun d => a2c al d == b

end Sys2Proof.Machine
end

