-- ==== Sys2Proof/Machine/State.lean ====
section
/-! DEFINITION. The state of one codec instance with its host's memory (spec/10_state.md), the ways a step can stop, and the
state after reset (R25). -/

namespace Sys2Proof.Machine

/-- The error kinds of ERR with their payload (spec/30_encoding.md R55): NONE, LENGTH, INVALID with EBYTE. The fourth code
is never written, so it does not exist here (R57). -/
inductive Err where
  | noError
  | length
  | invalid (b : Byte)
  deriving DecidableEq, Repr

/-- The result registers N and ERR, with EBYTE inside the INVALID case (R18: "a model represents the result as a tagged
value"). -/
structure Result where
  n   : Nat
  err : Err
  deriving DecidableEq, Repr

/-- R27: an instance is either idle or executing exactly one operation. Which one is running, OP says. -/
inductive Activity where
  | idle
  | running
  deriving DecidableEq, Repr

/-- Which operands the host has presented for the next operation (R17, R119; R128, first row): whether it has written OP, LEN
and CAP and given SRC and DST. Log 20. -/
structure Presented where
  op  : Bool
  len : Bool
  cap : Bool
  src : Bool
  dst : Bool
  deriving DecidableEq, Repr

/-- Host memory: (address, byte) pairs, addresses strictly rising. An address that is not listed has no value (log 5), so no
entry can equal what an unlisted address reads as. -/
abbrev Memory := List Host.Cell

/-- Everything the spec gives the machine, and the host's side of it.
* `cfg`: the parameters LEN_W and ALPHABET; ALPHA is `cfg.alphabet` (R15) and REV is computed from it (R16).
* `op`, `len`, `cap`: the operand registers OP, LEN, CAP (R17).
* `result`: the result registers N, ERR, EBYTE (R18); none until the first operation has ended (R25).
* `v`, `k`, `i`: the working registers V and i (R20) and the block index k (R14). They do not survive an operation (overview
  table; R40): an idle instance has them at the values of `State.reset` (log 7).
* `activity`: idle or busy (R27).
* `srcBase`, `dstBase`: where in host memory SRC and DST begin, as the host gave them (R17, R28; log 4). SRC is `len` bytes, DST is `cap` bytes.
* `mem`: host memory, which holds both buffers (R21, R22).
* `presented`: which operands the host has presented since the last operation ended (R17, R128; log 20). The model's own field.
* `draws`: how many free values have been drawn (R90; log 10). The model's own field.
* `host`: the moves the host will make, next first (R128; log 12). The model's own field. -/
structure State where
  cfg       : Config
  op        : BitVec 2
  len       : Nat
  cap       : Nat
  result    : Option Result
  v         : Value
  k         : Nat
  i         : Fin 5
  activity  : Activity
  srcBase   : Nat
  dstBase   : Nat
  mem       : Memory
  presented : Presented
  draws     : Nat
  host      : List HostMove
  deriving DecidableEq, Repr

/-- Why the machine stops with a fault. -/
inductive Fault where
  /-- ENCODE or DECODE reads a byte of SRC that the host never filled. Raised by the block steps `encodeBlock` and
  `decodeChars`. No operation the host starts raises it: a start on an unfilled SRC is refused (sourceNotFilled). Safe: it
  stops. Log 5. -/
  | sourceByteAbsent
  deriving DecidableEq, Repr

/-- Why an operation, or a move of the host, has no outcome. -/
inductive Refusal where
  /-- An operation that has no meaning in the model yet; raised by Dispatch.lean only. No arm uses it. Safe. -/
  | notModelled (mnemonic : String)
  /-- R109: aligned LEN and CAP below LEN/4*5 (ENCODE) or LEN/5*4 (DECODE). Raised by ENCODE (R74) and DECODE (R87). Safe:
  "A refusal errs toward unprovable". -/
  | capacityViolation
  /-- R109: SRC and DST share at least one byte. Raised by ENCODE and DECODE (R41), before the length check (log 11). Safe. -/
  | bufferOverlap
  /-- R128: the host starts an operation without having presented its operands (R17, R119). Raised by the start move of the
  host. Safe. Log 20. -/
  | operandNotPresented
  /-- R128, R119 (a): the host starts ENCODE or DECODE on a SRC it has not filled. Raised by the start move of the host. Safe.
  Log 19. -/
  | sourceNotFilled
  /-- R69: LEN/4*5 does not fit a finite LEN_W. Raised by ENCLEN and ENCODE, and by a host move that would write a value
  that LEN_W bits do not hold (log 17). Safe. -/
  | lengthDoesNotFit
  /-- R125, R128: an operation started on an instance that is not idle. Raised by all four operations. Safe. Log 14. -/
  | instanceBusy
  deriving DecidableEq, Repr

/-- The outcome of an operation, of a move of the host or of a step. -/
abbrev Out := Host.Outcome State Fault Refusal

/-- The state after reset (R25, R117): idle, the tables at their constant content, no result. OP, LEN, CAP, V, k and i are
unspecified by R25 and hold the values of log 6 and log 7; the host has presented no operand (R25: "the host writes them before
it starts an operation"; log 20); host memory lists nothing (log 5); the host has no move to make (log 12). -/
def State.reset : State where
  cfg := ⟨none, defaultAlphabet⟩
  op := 0
  len := 0
  cap := 0
  result := none
  v := 0
  k := 0
  i := 0
  activity := .idle
  srcBase := 0
  dstBase := 0
  mem := []
  presented := ⟨false, false, false, false, false⟩
  draws := 0
  host := []

end Sys2Proof.Machine
end

