-- ==== Sys2Proof/Machine/Flags.lean ====
section
/-! DEFINITION. ERR, the only status flag (spec/10_state.md R19), its codes (spec/30_encoding.md R55), and the result
registers as the host reads them (R18). There is no carry, zero, overflow or sign flag (R19, R130). -/

namespace Sys2Proof.Machine

/-- The 2-bit code of ERR (R55). Code 3 is never written (R57). -/
def Err.code : Err → BitVec 2
  | .noError => 0
  | .length => 1
  | .invalid _ => 2

/-- EBYTE: "meaningful only when ERR = INVALID: the offending byte" (R18). -/
def Err.payload : Err → Option Byte
  | .noError => none
  | .length => none
  | .invalid b => some b

/-- What the host reads from N (R18); nothing before the first operation has ended (R25). -/
def State.regN (s : State) : Option Nat := s.result.map Result.n

/-- What the host reads from ERR (R18, R55). -/
def State.regErr (s : State) : Option (BitVec 2) := s.result.map fun r => r.err.code

/-- What the host reads from EBYTE (R18): a byte after Invalid Symbol, else no value. -/
def State.regEbyte (s : State) : Option Byte := s.result.bind fun r => r.err.payload

/-- The result of an operation that ended without an error (R66, R67, R76, R89). -/
def success (n : Nat) : Result := ⟨n, .noError⟩

end Sys2Proof.Machine
end

