-- ==== Sys2Proof/Machine/Operands.lean ====
section
/-! DEFINITION. Operand assembly (spec/30_encoding.md R44 to R47), the block functions ENCBLK (spec/42_encoder.md R72) and
DECBLK (spec/43_decoder.md R83), and the whole-buffer functions of R71 and R81. No machine state is named here. -/

namespace Sys2Proof.Machine

/-- PACK (R44): four bytes, the one at the lowest index most significant (R31). -/
def pack (b0 b1 b2 b3 : Byte) : Value :=
  (b0.setWidth 32 <<< 24) ||| (b1.setWidth 32 <<< 16) ||| (b2.setWidth 32 <<< 8) ||| b3.setWidth 32

/-- UNPACK (R45): the four bytes of a value, most significant first. -/
def unpack (v : Value) : List Byte :=
  [(v >>> 24).setWidth 8, (v >>> 16).setWidth 8, (v >>> 8).setWidth 8, v.setWidth 8]

/-- The digit of weight 85^(4-i) (R46): `(v / 85^(4-i)) % 85`. -/
def digitAt (v : Value) (i : Fin 5) : Digit := Fin.ofNat 85 (v.toNat / 85 ^ (4 - i.val))

/-- DIGITS (R46): five digits, most significant first. -/
def digits (v : Value) : List Digit := (List.finRange 5).map (digitAt v)

/-- One step of ACC (R47): `(v * 85 + d) mod 2^32`. -/
def accStep (v : Value) (d : Digit) : Value := v * 85 + BitVec.ofNat 32 d.val

/-- ACC (R47): accumulation from zero, the digit of the lowest index first. -/
def acc (ds : List Digit) : Value := ds.foldl accStep 0

/-- The sum of the weighted digits before any reduction, "S" of R85. -/
def digitSum (ds : List Digit) : Nat := ds.foldl (fun n d => n * 85 + d.val) 0

/-- ENCBLK (R72): four bytes to five characters. -/
def encblk (al : Alphabet) (b0 b1 b2 b3 : Byte) : List Byte := (digits (pack b0 b1 b2 b3)).map (a2c al)

/-- The loop of DECBLK (R83) over the characters still to come: a value, or the first invalid byte. -/
def decAccumulate (al : Alphabet) : Value → List Byte → Except Byte Value
  | v, [] => .ok v
  | v, c :: cs =>
    match c2d al c with
    | none => .error c
    | some d => decAccumulate al (accStep v d) cs

/-- DECBLK (R83): five characters to four bytes, or `InvalidSymbol` of the first invalid one. -/
def decblk (al : Alphabet) (c0 c1 c2 c3 c4 : Byte) : Except Byte (List Byte) :=
  match decAccumulate al 0 [c0, c1, c2, c3, c4] with
  | .ok v => .ok (unpack v)
  | .error b => .error b

/-- ENCODE "as a function of whole buffers" (R71), for a length that is a multiple of 4. -/
def encodeBuffer (al : Alphabet) : List Byte → List Byte
  | b0 :: b1 :: b2 :: b3 :: rest => encblk al b0 b1 b2 b3 ++ encodeBuffer al rest
  | _ => []

/-- DECODE "as a function of whole buffers" (R81), for a length that is a multiple of 5: the bytes, or the first invalid
byte. -/
def decodeBuffer (al : Alphabet) : List Byte → Except Byte (List Byte)
  | c0 :: c1 :: c2 :: c3 :: c4 :: rest =>
    match decblk al c0 c1 c2 c3 c4 with
    | .error b => .error b
    | .ok bs =>
      match decodeBuffer al rest with
      | .error b => .error b
      | .ok more => .ok (bs ++ more)
  | _ => .ok []

/-- ENCLEN as a number (R66): `(n / 4) * 5`, division rounded down. -/
def encLen (n : Nat) : Nat := n / 4 * 5

/-- DECLEN as a number (R67): `(n / 5) * 4`, division rounded down. -/
def decLen (n : Nat) : Nat := n / 5 * 4

end Sys2Proof.Machine
end

