-- ==== Sys2Proof/Machine/Ops.lean ====
section
/-! DEFINITION. The operations every meaning is made of: one byte of host memory read or written (spec/20_memory.md R34),
SRC and DST by index (R28, spec/45_common_semantics.md R132), the start and the end of an operation
(spec/60_exceptions.md R106, R107, R110), the checks before the first block (R105, R131), the run of block steps (R80). -/

namespace Sys2Proof.Machine

/-- Go on with the next state; a fault or a refusal ends everything. -/
def andThen (o : Out) (f : State → Out) : Out :=
  match o with
  | .next s => f s
  | .fault r => .fault r
  | .refused r => .refused r

/-- Addresses strictly rising: the one form in which a memory is written down. -/
abbrev Memory.wf (m : Memory) : Prop := m.Pairwise fun x y => x.1 < y.1

/-- One byte of host memory; none where no byte is listed (log 5). -/
def Memory.read : Memory → Nat → Option Byte
  | [], _ => none
  | c :: m, a => if c.1 = a then some c.2 else Memory.read m a

/-- Store one byte of host memory, keeping the addresses strictly rising. -/
def Memory.write : Memory → Nat → Byte → Memory
  | [], a, b => [(a, b)]
  | c :: m, a, b =>
    if a < c.1 then (a, b) :: c :: m
    else if a = c.1 then (a, b) :: m
    else c :: Memory.write m a b

/-- Store bytes at `a`, `a + 1`, … one after the other. -/
def Memory.writeList : Memory → Nat → List Byte → Memory
  | m, _, [] => m
  | m, a, b :: bs => Memory.writeList (Memory.write m a b) (a + 1) bs

/-- `MemRead(SRC+j, 1)` (spec/00_scope.md, "Memory"). -/
def State.srcByte (s : State) (j : Nat) : Option Byte := s.mem.read (s.srcBase + j)

/-- What the byte of index `j` of DST holds, as the host reads it after an operation (R120). The codec never reads it. -/
def State.dstByte (s : State) (j : Nat) : Option Byte := s.mem.read (s.dstBase + j)

/-- `MemWrite(DST+j, 1, b)` for the bytes `bs` at `j`, `j + 1`, … (R132). -/
def State.dstWrite (s : State) (j : Nat) (bs : List Byte) : State :=
  { s with mem := s.mem.writeList (s.dstBase + j) bs }

/-- The operation starts: the instance is busy, at block 0 (R14, R27). -/
def State.begin (s : State) : State := { s with activity := .running, k := 0 }

/-- The operation ends: the result registers are written and the instance is idle (R18, R120). It holds no index into and no
copy of a buffer from then on (R40): V, k and i do not survive and stand at the values of `State.reset` (log 7), and the host
has yet to present the operands of the next operation (overview table of 10_state.md; log 20). This is the one way an
operation ends, with or without an error. -/
def State.finish (s : State) (r : Result) : State :=
  { s with
    result := some r, activity := .idle, v := State.reset.v, k := State.reset.k, i := State.reset.i,
    presented := State.reset.presented }

/-- Taking an error (R106, R107): the operation ends at once with N = 0 and ERR the error. There is no saved status, no
handler and no mode (R108), and no return from it: the instance is idle, as after a success (R110). -/
def State.raise (s : State) (e : Err) : State := s.finish ⟨0, e⟩

/-- `n` free values, the first of them number `d` (R90, log 10). -/
def freeBytes (d n : Nat) : List Byte := (List.range n).map fun j => Config.freeByte (d + j)

/-- R90: DST[0 .. n) holds any value from here on, one free draw per byte. -/
def State.forgetDst (s : State) (n : Nat) : State :=
  { s.dstWrite 0 (freeBytes s.draws n) with draws := s.draws + n }

/-- SRC and DST share at least one byte (R109). -/
def State.overlap (s : State) : Bool :=
  decide (0 < s.len ∧ 0 < s.cap ∧ s.srcBase < s.dstBase + s.cap ∧ s.dstBase < s.srcBase + s.len)

/-- The first `n` bytes of SRC have a value. -/
def State.filledTo (s : State) : Nat → Bool
  | 0 => true
  | n + 1 => (s.srcByte n).isSome && s.filledTo n

/-- Only an idle instance starts an operation (R27, R125). -/
def whenIdle (s : State) (o : Out) : Out :=
  match s.activity with
  | .idle => o
  | .running => .refused .instanceBusy

/-- The checks before the first block. First, whatever LEN is, that SRC and DST share no byte (R41, R109; log 11). Then, in the
order of R105 and R131, the length against the block size and the size `need` of the whole output against CAP. `representable`
says that `need` is a value that LEN_W bits hold (R69, log 17). No byte of SRC is looked at (R73, R86). -/
def checked (s : State) (block need : Nat) (representable : Bool) (run : State → Out) : Out :=
  if s.overlap then .refused .bufferOverlap
  else if s.len % block ≠ 0 then .next (s.raise .length)
  else if representable = false then .refused .lengthDoesNotFit
  else if s.cap < need then .refused .capacityViolation
  else run s.begin

/-- Run block steps until the instance is idle, at most `n` of them (R80, R93: "There is exactly one run from every start"). -/
def drive (f : State → Out) : Nat → State → Out
  | 0, s => .next s
  | n + 1, s =>
    match f s with
    | .next t =>
      match t.activity with
      | .idle => .next t
      | .running => drive f n t
    | .fault r => .fault r
    | .refused r => .refused r

/-- Reset of the instance (R25, R117): its own registers take their reset values. The tables are ROM and keep their content,
host memory and the host's side are not touched. Log 18. -/
def State.resetCodec (s : State) : State :=
  { s with
    op := State.reset.op, len := State.reset.len, cap := State.reset.cap, result := State.reset.result,
    v := State.reset.v, k := State.reset.k, i := State.reset.i, activity := State.reset.activity,
    presented := State.reset.presented }

end Sys2Proof.Machine
end

