-- ==== Sys2Proof/Machine/Decoder.lean ====
section
/-! DEFINITION. The decoder (spec/43_decoder.md R81 to R93). -/

namespace Sys2Proof.Machine

/-- Invalid Symbol in block `k` (R90, R107): DST[0..4k) is free from here on, the rest of DST is untouched, N is 0, EBYTE the
byte. -/
def State.raiseInvalid (s : State) (b : Byte) : State := (s.forgetDst (4 * s.k)).raise (.invalid b)

/-- The character loop of one block (R83): for each digit index still to come, the byte of SRC, its digit, the accumulator.
The first invalid byte ends the operation (R82, R84), and no byte after it is read (R35). -/
def decodeChars : List (Fin 5) → State → Out
  | [], s => .next s
  | i :: rest, s =>
    match s.srcByte (5 * s.k + i.val) with
    | none => .fault .sourceByteAbsent
    | some c =>
      match c2d s.cfg.alphabet c with
      | none => .next ({ s with i := i }.raiseInvalid c)
      | some d => decodeChars rest { s with i := i, v := accStep s.v d }

/-- The bytes of V go to DST, most significant first, and the next block is `k + 1` (R83, R88). -/
def State.emitValue (s : State) : State := { s.dstWrite (4 * s.k) (unpack s.v) with k := s.k + 1 }

/-- Block `k` of a running DECODE (R88, R93): V from zero over the five characters; unless the operation has ended, write the
four bytes. -/
def decodeBlock (s : State) : Out :=
  andThen (decodeChars (List.finRange 5) { s with v := 0 }) fun t =>
    match t.activity with
    | .idle => .next t
    | .running => .next t.emitValue

/-- The step view of a running DECODE (R93): a block while `k < LEN/5`, else write N and ERR and become idle (R89). -/
def decodeStep (s : State) : Out :=
  if s.k < s.len / 5 then decodeBlock s else .next (s.finish (success (decLen s.len)))

/-- A running DECODE goes on to its end, one step per block and at most one to end (R93). -/
def resumeDecode (s : State) : Out := drive decodeStep (s.len / 5 - s.k + 1) s

/-- DECODE (R81): the checks, then the whole run. Its output size never exceeds LEN, so it always fits (R69). -/
def execDecode (s : State) : Out := whenIdle s (checked s 5 (decLen s.len) true resumeDecode)

end Sys2Proof.Machine
end

