-- ==== Sys2Proof/Machine/Encoder.lean ====
section
/-! DEFINITION. The encoder (spec/42_encoder.md R71 to R80). -/

namespace Sys2Proof.Machine

/-- The character loop of one block (R72, R71): for each digit index still to come, the digit of V, its character, one byte
of DST. -/
def emitChars : List (Fin 5) → State → State
  | [], s => s
  | i :: rest, s => emitChars rest ({ s with i := i }.dstWrite (5 * s.k + i.val) [a2c s.cfg.alphabet (digitAt s.v i)])

/-- Block `k` of a running ENCODE (R75, R80): read its four bytes, set V, write its five characters, go to `k + 1`. -/
def encodeBlock (s : State) : Out :=
  match s.srcByte (4 * s.k), s.srcByte (4 * s.k + 1), s.srcByte (4 * s.k + 2), s.srcByte (4 * s.k + 3) with
  | some b0, some b1, some b2, some b3 =>
    .next { emitChars (List.finRange 5) { s with v := pack b0 b1 b2 b3 } with k := s.k + 1 }
  | _, _, _, _ => .fault .sourceByteAbsent

/-- The step view of a running ENCODE (R80): a block while `k < LEN/4`, else write N and ERR and become idle (R76). -/
def encodeStep (s : State) : Out :=
  if s.k < s.len / 4 then encodeBlock s else .next (s.finish (success (encLen s.len)))

/-- A running ENCODE goes on to its end, one step per block and one to end (R80). -/
def resumeEncode (s : State) : Out := drive encodeStep (s.len / 4 - s.k + 1) s

/-- ENCODE (R71): the checks, then the whole run. With a finite LEN_W an output size that does not fit is refused (R69). -/
def execEncode (s : State) : Out :=
  whenIdle s (checked s 4 (encLen s.len) (s.cfg.fits (encLen s.len)) resumeEncode)

end Sys2Proof.Machine
end

