-- ==== Sys2Proof/Machine/Length.lean ====
section
/-! DEFINITION. The length functions ENCLEN and DECLEN (spec/41_length_functions.md R66 to R69). -/

namespace Sys2Proof.Machine

/-- The one computation of ENCLEN (R66); a result that does not fit a finite LEN_W is refused (R69). -/
def enclenStep (s : State) : Out :=
  if s.cfg.fits (encLen s.len) then .next (s.finish (success (encLen s.len))) else .refused .lengthDoesNotFit

/-- The one computation of DECLEN (R67). Its result never exceeds LEN, so it fits (R69). -/
def declenStep (s : State) : Out := .next (s.finish (success (decLen s.len)))

/-- ENCLEN (R66, R68): no validation, no buffer, no decision point (R131). -/
def execEnclen (s : State) : Out := whenIdle s (enclenStep s)

/-- DECLEN (R67, R68). -/
def execDeclen (s : State) : Out := whenIdle s (declenStep s)

end Sys2Proof.Machine
end

