-- ==== Sys2Proof/Machine/HostMoves.lean ====
section
/-! DEFINITION. The moves of the host on an idle instance (spec/70_reset_and_hazards.md R128, R119), and a running operation
that goes on (spec/42_encoder.md R80, spec/43_decoder.md R93). -/

namespace Sys2Proof.Machine

/-- The operation OP names (R17, R56). -/
def State.current (s : State) : Instr := decodeOp s.op

/-- The operands an operation needs (R119: "Before ENCLEN or DECLEN the host sets LEN only"; R128, first row). -/
def operandsOf : Instr → Presented
  | .enclen => ⟨true, true, false, false, false⟩
  | .declen => ⟨true, true, false, false, false⟩
  | .encode => ⟨true, true, true, true, true⟩
  | .decode => ⟨true, true, true, true, true⟩

/-- Every operand that `need` asks for has been presented. -/
def Presented.covers (p need : Presented) : Bool :=
  (p.op || !need.op) && (p.len || !need.len) && (p.cap || !need.cap) && (p.src || !need.src) && (p.dst || !need.dst)

/-- The duty to fill SRC (R119 (a)), for the operations that have a source. -/
def State.sourceDone (s : State) : Instr → Bool
  | .enclen => true
  | .declen => true
  | .encode => s.filledTo s.len
  | .decode => s.filledTo s.len

/-- The host starts operation `i`. "An operation started in breach of a must is refused" (R128): its operands have been
presented (log 20), and SRC is filled (log 19). That CAP is large enough and the buffers disjoint, `exec` checks, at the place
the rules of the operation give it (R74, R87, R41). -/
def State.startOp (s : State) (i : Instr) : Out :=
  if s.presented.covers (operandsOf i) = false then .refused .operandNotPresented
  else if s.sourceDone i = false then .refused .sourceNotFilled
  else exec i s

/-- What a move of the host does to the state. `start` starts the operation that OP names. -/
def applyMove (m : HostMove) (s : State) : Out :=
  match m with
  | .setOp op => .next { s with op := op, presented := { s.presented with op := true } }
  | .setLen n => .next { s with len := n, presented := { s.presented with len := true } }
  | .setCap n => .next { s with cap := n, presented := { s.presented with cap := true } }
  | .giveSrc base => .next { s with srcBase := base, presented := { s.presented with src := true } }
  | .giveDst base => .next { s with dstBase := base, presented := { s.presented with dst := true } }
  | .writeByte a b => .next { s with mem := s.mem.write a b }
  | .start => s.startOp s.current
  | .reset => .next s.resetCodec

/-- A move of the host; a length that LEN_W bits do not hold cannot be written (R17, log 17). -/
def hostMove (m : HostMove) (s : State) : Out :=
  if m.wf s.cfg then applyMove m s else .refused .lengthDoesNotFit

/-- A running operation goes on to its end (R126). No step leaves an instance running (every operation is one step of the
model, log 1), so this is what a state written down in the middle of an operation does. Log 14. -/
def resume (s : State) : Out :=
  match s.current with
  | .enclen => enclenStep s
  | .declen => declenStep s
  | .encode => resumeEncode s
  | .decode => resumeDecode s

end Sys2Proof.Machine
end

