-- ==== Sys2Proof/Machine/Step.lean ====
section
/-! DEFINITION. One step: the running operation goes on; an idle instance takes the host's next move; with no move it stays
idle (spec/60_exceptions.md R115, spec/70_reset_and_hazards.md R128). -/

namespace Sys2Proof.Machine

def step (s : State) : Host.Outcome State Fault Refusal :=
  match s.activity with
  | .running => resume s
  | .idle =>
    match s.host with
    | [] => .next s
    | m :: rest => hostMove m { s with host := rest }

/-- `s` with the operation whose bits are `w` presented to the codec: OP holds it, LEN, CAP, SRC and DST count as presented as
they stand, the instance is idle and the host's next move is to start it. This stands for the host presenting a command (R54; log 12). A word that is no operation code is not
presented: OP has two bits (log 13). -/
def State.withFetchWord (s : State) (nbits w : Nat) : State :=
  match decodeTableWord nbits w with
  | some i => { s with op := opCode i, presented := operandsOf i, activity := .idle, host := .start :: s.host }
  | none => s

end Sys2Proof.Machine
end

