-- ==== Sys2Proof/Safety.lean ====
section
/-! DEFINITION. The words the statements use: what a buffer holds, what an operation leaves alone, when an operation is ready
to run (spec/70_reset_and_hazards.md R119), the invariant of the machine. -/

namespace Sys2Proof.Machine

/-- SRC holds `bs`: LEN is their number and the byte of index `j` is the `j`-th of them (R21, R119 (a)). -/
abbrev State.SrcHolds (s : State) (bs : List Byte) : Prop :=
  s.len = bs.length ∧ ∀ j, j < bs.length → s.srcByte j = bs[j]?

/-- DST holds `bs` from index 0 on (R22). -/
abbrev State.DstHolds (s : State) (bs : List Byte) : Prop :=
  ∀ j, j < bs.length → s.dstByte j = bs[j]?

/-- Host memory reads the same in both states at every address but the `n` ones from `lo` on. -/
def SameMemoryBut (s t : State) (lo n : Nat) : Prop :=
  ∀ a, ¬ (lo ≤ a ∧ a < lo + n) → t.mem.read a = s.mem.read a

/-- Host memory reads the same everywhere. -/
def SameMemory (s t : State) : Prop := ∀ a, t.mem.read a = s.mem.read a

/-- The codec changes neither the tables nor LEN_W (R64), nor the operand registers (U9), nor where the buffers lie, nor the
host's coming moves. -/
abbrev SameCommand (s t : State) : Prop :=
  t.cfg = s.cfg ∧ t.op = s.op ∧ t.len = s.len ∧ t.cap = s.cap ∧ t.srcBase = s.srcBase ∧ t.dstBase = s.dstBase ∧
  t.host = s.host

/-- The working registers V, k and i hold nothing of an operation (R14, R20, R40): they stand at their reset values (log 7). -/
abbrev State.AtRest (s : State) : Prop := s.v = State.reset.v ∧ s.k = State.reset.k ∧ s.i = State.reset.i

/-- All of SRC has been filled by the host (R119 (a)). -/
abbrev State.Filled (s : State) : Prop := ∀ j, j < s.len → (s.srcByte j).isSome = true

/-- The host has presented the operands of operation `i` since the last operation ended (R17, R119; R128, first row; log 20). -/
abbrev State.PresentedFor (s : State) (i : Instr) : Prop :=
  s.presented.op = true ∧ s.presented.len = true ∧
  (i = .encode ∨ i = .decode → s.presented.cap = true ∧ s.presented.src = true ∧ s.presented.dst = true)

/-- The host has presented the operands of operation `i` and filled its source, so that it may start it (R119, R128). -/
abbrev State.DutiesDone (s : State) (i : Instr) : Prop := s.PresentedFor i ∧ (i = .encode ∨ i = .decode → s.Filled)

/-- ENCODE passes its checks: LEN aligned, the output size representable, CAP large enough, the buffers disjoint (R105, R109,
R119). -/
abbrev State.EncodeAdmitted (s : State) : Prop :=
  s.activity = .idle ∧ s.len % 4 = 0 ∧ s.cfg.fits (encLen s.len) = true ∧ encLen s.len ≤ s.cap ∧ s.overlap = false

/-- DECODE passes its checks (R105, R109, R119). -/
abbrev State.DecodeAdmitted (s : State) : Prop :=
  s.activity = .idle ∧ s.len % 5 = 0 ∧ decLen s.len ≤ s.cap ∧ s.overlap = false

/-- The byte of index `p` is the first invalid byte of SRC (R90). -/
abbrev State.FirstInvalid (s : State) (p : Nat) (b : Byte) : Prop :=
  p < s.len ∧ s.srcByte p = some b ∧ c2d s.cfg.alphabet b = none ∧
  ∀ j, j < p → ((s.srcByte j).bind (c2d s.cfg.alphabet)).isSome = true

/-- Operation `i` has an outcome (R103, R109): the instance is idle, and for ENCODE and DECODE the buffers are disjoint and, with
LEN aligned, CAP is large enough and every byte of SRC that the operation reads has a value (R35). -/
def State.Ready (s : State) : Instr → Prop
  | .enclen => s.activity = .idle ∧ s.cfg.fits (encLen s.len) = true
  | .declen => s.activity = .idle
  | .encode => s.activity = .idle ∧ s.overlap = false ∧ (s.len % 4 = 0 → s.EncodeAdmitted ∧ s.Filled)
  | .decode => s.activity = .idle ∧ s.overlap = false ∧
      (s.len % 5 = 0 → s.DecodeAdmitted ∧ (s.Filled ∨ ∃ p b, s.FirstInvalid p b))

/-- The REV column of R51 from byte 33 to byte 125, written out from the spec; INVALID is `none`. -/
def reverseListing : List (Option Nat) :=
  [some 68, none, some 84, some 83, some 82, some 72, none, some 75, some 76, some 70, some 65, none, some 63,
    some 62, some 69] ++
  [some 0, some 1, some 2, some 3, some 4, some 5, some 6, some 7, some 8, some 9] ++
  [some 64, none, some 73, some 66, some 74, some 71, some 81] ++
  [some 36, some 37, some 38, some 39, some 40, some 41, some 42, some 43, some 44, some 45, some 46, some 47,
    some 48] ++
  [some 49, some 50, some 51, some 52, some 53, some 54, some 55, some 56, some 57, some 58, some 59, some 60,
    some 61] ++
  [some 77, none, some 78, some 67, none, none] ++
  [some 10, some 11, some 12, some 13, some 14, some 15, some 16, some 17, some 18, some 19, some 20, some 21,
    some 22] ++
  [some 23, some 24, some 25, some 26, some 27, some 28, some 29, some 30, some 31, some 32, some 33, some 34,
    some 35] ++
  [some 79, none, some 80]

/-- A canonical text (R96): a whole number of blocks of five valid bytes, the digit sum of each below `2^32`. -/
def CanonicalText (al : Alphabet) : List Byte → Prop
  | [] => True
  | c0 :: c1 :: c2 :: c3 :: c4 :: rest =>
    (∃ d0 d1 d2 d3 d4, c2d al c0 = some d0 ∧ c2d al c1 = some d1 ∧ c2d al c2 = some d2 ∧ c2d al c3 = some d3 ∧
      c2d al c4 = some d4 ∧ digitSum [d0, d1, d2, d3, d4] < 2 ^ 32) ∧ CanonicalText al rest
  | _ => False

/-- Every byte is a valid byte (00_scope, glossary). -/
def AllValid (al : Alphabet) (cs : List Byte) : Prop := ∀ c ∈ cs, (c2d al c).isSome = true

/-- What the result registers may hold: N is a LEN_W-bit value; with an error N is 0; EBYTE is always an invalid byte (R18,
R102, R106, R107). -/
def Result.wf (c : Config) (r : Result) : Prop :=
  c.fits r.n = true ∧
  match r.err with
  | .noError => True
  | .length => r.n = 0
  | .invalid b => r.n = 0 ∧ c2d c.alphabet b = none

/-- A running operation has passed its length and capacity checks, and its block index has not passed the last block (R14). -/
def State.InProgress (s : State) : Prop :=
  match s.current with
  | .enclen => True
  | .declen => True
  | .encode => s.len % 4 = 0 ∧ encLen s.len ≤ s.cap ∧ s.k ≤ s.len / 4
  | .decode => s.len % 5 = 0 ∧ decLen s.len ≤ s.cap ∧ s.k ≤ s.len / 5

/-- The invariant of the machine: the parameters meet R49 and D4, host memory has its canonical form, LEN and CAP are LEN_W-bit
values (R17), the result registers are legal, an idle instance holds nothing of an operation (R40), a running operation is in
progress. -/
structure State.Inv (s : State) : Prop where
  cfg     : s.cfg.wf = true
  mem     : s.mem.wf
  len     : s.cfg.fits s.len = true
  cap     : s.cfg.fits s.cap = true
  result  : ∀ r, s.result = some r → r.wf s.cfg
  idle    : s.activity = .idle → s.AtRest
  running : s.activity = .running → s.InProgress

end Sys2Proof.Machine
end

