-- ==== Sys2Proof/Certificates/Slice0/Obligations.lean ====
section
/-! DEFINITION. The statements for the provers. Each docstring names the rule of spec/ it formalises. -/

open Sys2Proof Sys2Proof.Machine

/-- The operation table of R56, its words written out from its OP column. That a byte with a bit above OP names no operation is the model's choice (log 13). -/
def Obligations.CommandBytesNameTheFourOperations : Prop :=
  decode [0x00] = .ok (.enclen, []) ∧ decode [0x01] = .ok (.declen, []) ∧ decode [0x02] = .ok (.encode, []) ∧
  decode [0x03] = .ok (.decode, []) ∧ decode [0x04] = .error (.notAnOpCode 0x04) ∧
  decode [0x80] = .error (.notAnOpCode 0x80)

/-- R56: "A decoder for OP is total: every 2-bit value selects an operation", R57: no OP value is reserved. One byte a command is log 13. -/
def Obligations.CommandDecodeAndEncodeAgree : Prop :=
  (∀ (i : Instr) (rest : List Byte), decode (encode i ++ rest) = .ok (i, rest)) ∧
  (∀ (bs : List Byte) (i : Instr) (rest : List Byte), decode bs = .ok (i, rest) → bs = encode i ++ rest) ∧
  (∀ op : BitVec 2, opCode (decodeOp op) = op) ∧ (∀ i : Instr, decodeOp (opCode i) = i)

/-- R17, R119, R128: the host starts the operation that OP names. The host's list of moves and withFetchWord are the model's own (log 12), and so is the record of what has been presented (log 20). When a duty is not done: SmallOrOverlappingDestinationIsRefused. -/
def Obligations.StepRunsTheOperationThatOpNames : Prop :=
  (∀ (s : State) (rest : List HostMove) (i : Instr), s.activity = .idle → s.host = .start :: rest →
    decode [opByte s.op] = .ok (i, []) → i.wf = true → s.DutiesDone i → step s = exec i { s with host := rest }) ∧
  (∀ (s : State) (i : Instr), (i = .encode ∨ i = .decode → s.Filled) →
    step (s.withFetchWord 8 (opCode i).toNat) =
      exec i { s with op := opCode i, presented := operandsOf i, activity := .idle })

/-- 60_exceptions section 9: "An idle instance stays idle until the host starts an operation; nothing wakes it and it loses nothing while idle". -/
def Obligations.IdleInstanceWaitsForTheHost : Prop :=
  ∀ s : State, s.activity = .idle → s.host = [] → step s = .next s

/-- R17, R119, R128. The list of the host's moves, and the refusal of a length that does not fit, are the model's (log 12, log 17), the record of what has been presented too (log 20), and so is the reset move (R25, R117; log 18) with the values it leaves where the spec says unspecified (log 6, log 7). -/
def Obligations.HostMovesSetWhatTheyName : Prop :=
  ∀ (s : State) (rest : List HostMove), s.activity = .idle →
    (∀ op, s.host = .setOp op :: rest → step s = .next { s with host := rest, op := op, presented := { s.presented with op := true } }) ∧
    (∀ n, s.host = .setLen n :: rest →
      step s = if s.cfg.fits n then .next { s with host := rest, len := n, presented := { s.presented with len := true } }
        else .refused .lengthDoesNotFit) ∧
    (∀ n, s.host = .setCap n :: rest →
      step s = if s.cfg.fits n then .next { s with host := rest, cap := n, presented := { s.presented with cap := true } }
        else .refused .lengthDoesNotFit) ∧
    (∀ a, s.host = .giveSrc a :: rest → step s = .next 
      { s with host := rest, srcBase := a, presented := { s.presented with src := true } }) ∧
    (∀ a, s.host = .giveDst a :: rest → step s = .next 
      { s with host := rest, dstBase := a, presented := { s.presented with dst := true } }) ∧
    (∀ a b, s.host = .writeByte a b :: rest → ∃ t, step s = .next t ∧ t = { s with host := rest, mem := t.mem } ∧
      t.mem.read a = some b ∧ ∀ x, x ≠ a → t.mem.read x = s.mem.read x) ∧
    (s.host = .start :: rest → s.DutiesDone (decodeOp s.op) → step s = exec (decodeOp s.op) { s with host := rest }) ∧
    (s.host = .reset :: rest →
      step s = .next { State.reset with
        cfg := s.cfg, srcBase := s.srcBase, dstBase := s.dstBase, mem := s.mem, draws := s.draws, host := rest })

/-- R125, R27: "The host cannot start a second operation on an instance that is executing one". That the model refuses it is log 14. -/
def Obligations.BusyInstanceRefusesAStart : Prop :=
  ∀ (i : Instr) (s : State), s.activity = .running → exec i s = .refused .instanceBusy

/-- R41, R128 second row; R30: "The codec writes no index outside that range". That the host has no move during an operation is the spec's decision D13 (log 16); that one step of the model takes a running instance to its end and leaves the host's list alone is the model's choice (log 1, log 14). -/
def Obligations.RunningOperationTakesNoHostMove : Prop :=
  ∀ s t : State, s.activity = .running → s.InProgress → step s = .next t →
    SameCommand s t ∧ t.activity = .idle ∧ SameMemoryBut s t s.dstBase s.cap

/-- R25, R117, a decision of the spec (D14): idle, ALPHA and REV at their content, no result. The other registers are unspecified there (log 6, log 7) and not mentioned. -/
def Obligations.ResetLeavesIdleTablesAndNoResult : Prop :=
  State.reset.activity = .idle ∧ State.reset.regN = none ∧ State.reset.regErr = none ∧ State.reset.regEbyte = none ∧
  State.reset.cfg.alphabet.wf = true ∧ State.reset.cfg.alphabet = defaultAlphabet ∧
  (∀ b : Byte, ∀ d : Digit, c2d State.reset.cfg.alphabet b = some d ↔ a2c State.reset.cfg.alphabet d = b)

/-- R117: "Reset does not touch host memory"; R25: the tables hold their content, the instance is idle. That the host may reset an idle instance is log 18. -/
def Obligations.ResetKeepsTablesAndHostMemory : Prop :=
  (∀ s : State, s.resetCodec.activity = .idle ∧ s.resetCodec.result = none ∧ s.resetCodec.cfg = s.cfg ∧
    s.resetCodec.mem = s.mem ∧ s.resetCodec.srcBase = s.srcBase ∧ s.resetCodec.dstBase = s.dstBase) ∧
  (∀ (s : State) (rest : List HostMove), s.activity = .idle → s.host = .reset :: rest →
    step s = .next { s.resetCodec with host := rest } ∧
    ∃ t, step s = .next t ∧ t.activity = .idle ∧ t.regN = none ∧ t.regErr = none ∧ t.regEbyte = none ∧ t.cfg = s.cfg ∧
      t.mem = s.mem ∧ t.srcBase = s.srcBase ∧ t.dstBase = s.dstBase ∧ t.host = rest)

/-- The REV column of R51 (which the spec derives from R48, and so from entries it marks as general knowledge; log 3), written out from byte 33 to byte 125. -/
def Obligations.ReverseTableOfTheDefaultAlphabet : Prop :=
  ∀ b : Byte, (c2d defaultAlphabet b).map Fin.val =
    if 33 ≤ b.toNat ∧ b.toNat ≤ 125 then
      reverseListing.getD (b.toNat - 33) none
    else none

/-- R49 (a) to (e), which the spec derives from R48 and R50. -/
def Obligations.AlphabetCheckIsTheFiveConditions : Prop :=
  (∀ al : Alphabet, al.wf = true ↔
    (∀ d e : Digit, a2c al d = a2c al e → d = e) ∧ (∀ p ∈ pinned, a2c al p.1 = p.2) ∧
    ((∃ d, a2c al d = 33) ∧ (∃ d, a2c al d = 125) ∧ ∀ d, 33 ≤ (a2c al d).toNat ∧ (a2c al d).toNat ≤ 125) ∧
    (∀ d, a2c al d ≠ 34) ∧ (∃ n, 33 ≤ n ∧ n ≤ 125 ∧ ∀ d, (a2c al d).toNat ≠ n)) ∧
  defaultAlphabet.wf = true ∧ pinned.length = 38

/-- R60. -/
def Obligations.DigitToCharacterLookup : Prop :=
  (∀ al : Alphabet, al.wf = true →
    (∀ d, (c2d al (a2c al d)).isSome = true ∧ 33 ≤ (a2c al d).toNat ∧ (a2c al d).toNat ≤ 125) ∧
    (∀ d e, a2c al d = a2c al e → d = e)) ∧
  a2c defaultAlphabet 0 = 0x30 ∧ a2c defaultAlphabet 43 = 0x48 ∧ a2c defaultAlphabet 68 = 0x21 ∧
  a2c defaultAlphabet 80 = 0x7D ∧ a2c defaultAlphabet 84 = 0x23

/-- R62. -/
def Obligations.CharacterToDigitLookup : Prop :=
  (∀ al : Alphabet, al.wf = true → ∀ b : Byte,
    ((b.toNat < 33 ∨ 125 < b.toNat) → c2d al b = none) ∧
    (33 ≤ b.toNat ∧ b.toNat ≤ 125 → (∀ d, a2c al d ≠ b) → c2d al b = none) ∧
    (33 ≤ b.toNat ∧ b.toNat ≤ 125 → ∀ d, a2c al d = b → c2d al b = some d)) ∧
  c2d defaultAlphabet 0x48 = some 43 ∧ c2d defaultAlphabet 0x23 = some 84 ∧ c2d defaultAlphabet 0x20 = none ∧
  c2d defaultAlphabet 0x22 = none ∧ c2d defaultAlphabet 0x7E = none ∧ c2d defaultAlphabet 0x00 = none ∧
  c2d defaultAlphabet 0xFF = none

/-- R63, the three laws. -/
def Obligations.ReverseLookupIsDerivedFromTheAlphabet : Prop :=
  ∀ al : Alphabet, al.wf = true →
    (∀ d : Digit, c2d al (a2c al d) = some d) ∧ (∀ (b : Byte) (d : Digit), c2d al b = some d → a2c al d = b) ∧
    (∀ b : Byte, (∀ d : Digit, b ≠ a2c al d) → c2d al b = none)

/-- The counts of R52: 85 valid byte values, 171 invalid ones. They hold for every alphabet that meets R49. -/
def Obligations.EightyFiveBytesAreValid : Prop :=
  ∀ al : Alphabet, al.wf = true →
    Nat.card { b : Byte // (c2d al b).isSome = true } = 85 ∧ Nat.card { b : Byte // c2d al b = none } = 171

/-- R44. -/
def Obligations.PackIsBigEndian : Prop :=
  (∀ b0 b1 b2 b3 : Byte,
    (pack b0 b1 b2 b3).toNat = b0.toNat * 16777216 + b1.toNat * 65536 + b2.toNat * 256 + b3.toNat ∧
    (pack b0 b1 b2 b3).toNat =
      (b0.toNat <<< 24 ||| b1.toNat <<< 16 ||| b2.toNat <<< 8 ||| b3.toNat) ∧
    (pack b0 b1 b2 b3).extractLsb' 24 8 = b0 ∧ (pack b0 b1 b2 b3).extractLsb' 16 8 = b1 ∧
    (pack b0 b1 b2 b3).extractLsb' 8 8 = b2 ∧ (pack b0 b1 b2 b3).extractLsb' 0 8 = b3) ∧
  (pack 0x86 0x4F 0xD2 0x6F).toNat = 2253378159

/-- R45. -/
def Obligations.UnpackInvertsPack : Prop :=
  (∀ v : Value, unpack v = [v.extractLsb' 24 8, v.extractLsb' 16 8, v.extractLsb' 8 8, v.extractLsb' 0 8] ∧
    (unpack v).map BitVec.toNat =
      [(v.toNat >>> 24) &&& 0xFF, (v.toNat >>> 16) &&& 0xFF, (v.toNat >>> 8) &&& 0xFF, v.toNat &&& 0xFF]) ∧
  (∀ b0 b1 b2 b3 : Byte, unpack (pack b0 b1 b2 b3) = [b0, b1, b2, b3]) ∧
  (∀ (v : Value) (b0 b1 b2 b3 : Byte), unpack v = [b0, b1, b2, b3] → pack b0 b1 b2 b3 = v) ∧
  unpack 0xB559F75B = [0xB5, 0x59, 0xF7, 0x5B]

/-- R46, with what the spec marks as its own inference there (the first digit is never 83 or 84). -/
def Obligations.DigitsDetermineTheValue : Prop :=
  (∀ v : Value, ∃ d0 d1 d2 d3 d4 : Digit, digits v = [d0, d1, d2, d3, d4] ∧
    d0.val = v.toNat / 52200625 % 85 ∧ d1.val = v.toNat / 614125 % 85 ∧ d2.val = v.toNat / 7225 % 85 ∧
    d3.val = v.toNat / 85 % 85 ∧ d4.val = v.toNat % 85 ∧
    v.toNat = d0.val * 85 ^ 4 + d1.val * 85 ^ 3 + d2.val * 85 ^ 2 + d3.val * 85 + d4.val ∧
    d0.val = v.toNat / 85 ^ 4 ∧ d0.val ≤ 82 ∧
    d0.val = v.toNat / 85 / 85 / 85 / 85 ∧ d1.val = v.toNat / 85 / 85 / 85 % 85 ∧ d2.val = v.toNat / 85 / 85 % 85) ∧
  (digits 2253378159).map Fin.val = [43, 14, 21, 21, 24]

/-- R47. The reduction modulo 2^32 is the spec's decision D7 (log 16). -/
def Obligations.AccReducesTheWeightedSum : Prop :=
  (∀ d0 d1 d2 d3 d4 : Digit,
    (acc [d0, d1, d2, d3, d4]).toNat =
      (d0.val * 85 ^ 4 + d1.val * 85 ^ 3 + d2.val * 85 ^ 2 + d3.val * 85 + d4.val) % 2 ^ 32 ∧
    (acc [d0, d1, d2, d3]).toNat = d0.val * 85 ^ 3 + d1.val * 85 ^ 2 + d2.val * 85 + d3.val) ∧
  (∀ v : Value, acc (digits v) = v) ∧ acc [58, 24, 27, 21, 13] = 3042572123

/-- R130: "DIGITS(ACC(d)) = d for every digit tuple d whose unreduced sum is below 2^32, and for no other". The wrap is D7 (log 16). -/
def Obligations.DigitsInvertAccExactlyBelowTheWrap : Prop :=
  ∀ d0 d1 d2 d3 d4 : Digit, digits (acc [d0, d1, d2, d3, d4]) = [d0, d1, d2, d3, d4] ↔
    d0.val * 85 ^ 4 + d1.val * 85 ^ 3 + d2.val * 85 ^ 2 + d3.val * 85 + d4.val < 2 ^ 32

/-- R85. That an overflow block wraps and is no error is the spec's decision D7 (log 16). -/
def Obligations.OverflowBlocksWrapOnce : Prop :=
  (∀ (al : Alphabet) (d0 d1 d2 d3 d4 : Digit), al.wf = true →
    digitSum [d0, d1, d2, d3, d4] < 2 * 2 ^ 32 ∧
    (2 ^ 32 ≤ digitSum [d0, d1, d2, d3, d4] ↔
      ([82, 23, 54, 12, 0] : List Nat) < [d0.val, d1.val, d2.val, d3.val, d4.val]) ∧
    (2 ^ 32 ≤ digitSum [d0, d1, d2, d3, d4] →
      decblk al (a2c al d0) (a2c al d1) (a2c al d2) (a2c al d3) (a2c al d4) =
        .ok (unpack (BitVec.ofNat 32 (digitSum [d0, d1, d2, d3, d4] - 2 ^ 32))))) ∧
  decblk defaultAlphabet 0x23 0x23 0x23 0x23 0x23 = .ok [0x08, 0x78, 0x0E, 0xC4]

/-- R72. -/
def Obligations.EncblkIsInjectiveAndValid : Prop :=
  (∀ (al : Alphabet) (b0 b1 b2 b3 : Byte), ∃ d0 d1 d2 d3 d4, digits (pack b0 b1 b2 b3) = [d0, d1, d2, d3, d4] ∧
    encblk al b0 b1 b2 b3 = [a2c al d0, a2c al d1, a2c al d2, a2c al d3, a2c al d4]) ∧
  (∀ al : Alphabet, al.wf = true →
    (∀ b0 b1 b2 b3 x0 x1 x2 x3 : Byte, encblk al b0 b1 b2 b3 = encblk al x0 x1 x2 x3 →
      b0 = x0 ∧ b1 = x1 ∧ b2 = x2 ∧ b3 = x3) ∧
    (∀ b0 b1 b2 b3 : Byte, AllValid al (encblk al b0 b1 b2 b3) ∧
      (encblk al b0 b1 b2 b3).head? ≠ some (a2c al 83) ∧ (encblk al b0 b1 b2 b3).head? ≠ some (a2c al 84))) ∧
  a2c defaultAlphabet 83 = 0x24 ∧ a2c defaultAlphabet 84 = 0x23 ∧
  encblk defaultAlphabet 0x86 0x4F 0xD2 0x6F = [0x48, 0x65, 0x6C, 0x6C, 0x6F]

/-- R83. -/
def Obligations.DecblkValidatesThenUnpacks : Prop :=
  (∀ (al : Alphabet) (c0 c1 c2 c3 c4 : Byte),
    (∀ d0 d1 d2 d3 d4, c2d al c0 = some d0 → c2d al c1 = some d1 → c2d al c2 = some d2 → c2d al c3 = some d3 →
      c2d al c4 = some d4 → decblk al c0 c1 c2 c3 c4 = .ok (unpack (acc [d0, d1, d2, d3, d4]))) ∧
    (∀ (p : Nat) (b : Byte), [c0, c1, c2, c3, c4][p]? = some b → c2d al b = none →
      (∀ q c, q < p → [c0, c1, c2, c3, c4][q]? = some c → (c2d al c).isSome = true) →
      decblk al c0 c1 c2 c3 c4 = .error b)) ∧
  decblk defaultAlphabet 0x57 0x6F 0x72 0x6C 0x64 = .ok [0xB5, 0x59, 0xF7, 0x5B]

/-- R95, which the spec derives from other rules. -/
def Obligations.BlockRoundTrip : Prop :=
  ∀ al : Alphabet, al.wf = true → ∀ b0 b1 b2 b3 : Byte, ∃ c0 c1 c2 c3 c4,
    encblk al b0 b1 b2 b3 = [c0, c1, c2, c3, c4] ∧ decblk al c0 c1 c2 c3 c4 = .ok [b0, b1, b2, b3]

/-- R94. -/
def Obligations.BinaryRoundTrip : Prop :=
  ∀ al : Alphabet, al.wf = true → ∀ bs : List Byte, bs.length % 4 = 0 →
    (encodeBuffer al bs).length = bs.length / 4 * 5 ∧ (encodeBuffer al bs).length % 5 = 0 ∧
    AllValid al (encodeBuffer al bs) ∧ decodeBuffer al (encodeBuffer al bs) = .ok bs

/-- R96, derived by the spec from R85 (the wrap, D7, log 16) and R95. -/
def Obligations.TextRoundTripExactlyForCanonicalText : Prop :=
  ∀ al : Alphabet, al.wf = true →
    (∀ cs : List Byte, cs.length % 5 = 0 → AllValid al cs →
      ∃ bs, decodeBuffer al cs = .ok bs ∧ (encodeBuffer al bs = cs ↔ CanonicalText al cs)) ∧
    (∀ cs : List Byte, CanonicalText al cs ↔ ∃ bs : List Byte, bs.length % 4 = 0 ∧ encodeBuffer al bs = cs)

/-- R99, derived by the spec from R75 and R88. -/
def Obligations.ConcatenationAtBlockBoundaries : Prop :=
  ∀ al : Alphabet,
    (∀ s1 s2 : List Byte, s1.length % 4 = 0 → encodeBuffer al (s1 ++ s2) = encodeBuffer al s1 ++ encodeBuffer al s2) ∧
    (∀ t1 t2 b1 : List Byte, t1.length % 5 = 0 → decodeBuffer al t1 = .ok b1 →
      (∀ b2, decodeBuffer al t2 = .ok b2 → decodeBuffer al (t1 ++ t2) = .ok (b1 ++ b2)) ∧
      (∀ b, decodeBuffer al t2 = .error b → decodeBuffer al (t1 ++ t2) = .error b)) ∧
    (∀ (t1 t2 : List Byte) (b : Byte), t1.length % 5 = 0 → decodeBuffer al t1 = .error b →
      decodeBuffer al (t1 ++ t2) = .error b)

/-- R98, derived by the spec; the last clause is the pair of R92 (d) and rests on D7 (log 16). -/
def Obligations.EncodingIsInjective : Prop :=
  (∀ al : Alphabet, al.wf = true →
    (∀ s1 s2 : List Byte, s1.length % 4 = 0 → s2.length % 4 = 0 → encodeBuffer al s1 = encodeBuffer al s2 → s1 = s2) ∧
    (∀ t1 t2 : List Byte, CanonicalText al t1 → CanonicalText al t2 → decodeBuffer al t1 = decodeBuffer al t2 →
      t1 = t2)) ∧
  decodeBuffer defaultAlphabet [0x25, 0x6E, 0x53, 0x63, 0x31] = decodeBuffer defaultAlphabet [0x30, 0x30, 0x30, 0x30, 0x30]

/-- R70, derived by the spec from R66 and R67. -/
def Obligations.SizeLawsOfTheLengthFunctions : Prop :=
  (∀ m, encLen (4 * m) = 5 * m ∧ decLen (5 * m) = 4 * m ∧ decLen (encLen (4 * m)) = 4 * m ∧
    encLen (decLen (5 * m)) = 5 * m) ∧
  (∀ n, encLen n % 5 = 0 ∧ decLen n % 4 = 0 ∧ encLen n = encLen (n - n % 4) ∧ decLen n = decLen (n - n % 5) ∧
    decLen n ≤ n) ∧
  (∀ m n, m ≤ n → encLen m ≤ encLen n ∧ decLen m ≤ decLen n)

/-- R66. -/
def Obligations.EnclenGivesTheEncodedLength : Prop :=
  ∀ s : State, s.activity = .idle → s.cfg.fits (s.len / 4 * 5) = true →
    ∃ t, exec .enclen s = .next t ∧ t.mem = s.mem ∧ SameCommand s t ∧ t.regN = some (s.len / 4 * 5) ∧
      t.regN = some (s.len / 4 * 4 / 4 * 5) ∧ t.regErr = some 0 ∧ t.regEbyte = none

/-- R67. -/
def Obligations.DeclenGivesTheDecodedLength : Prop :=
  ∀ s : State, s.activity = .idle →
    ∃ t, exec .declen s = .next t ∧ t.mem = s.mem ∧ SameCommand s t ∧ t.regN = some (s.len / 5 * 4) ∧
      s.len / 5 * 4 ≤ s.len ∧ t.regErr = some 0 ∧ t.regEbyte = none

/-- R69, a decision of the spec (D4): "a model refuses the operation rather than return a wrapped value". The name of the refusal is the model's (log 17). -/
def Obligations.EncodedLengthThatDoesNotFitIsRefused : Prop :=
  ∀ s : State, s.activity = .idle → s.cfg.fits (s.len / 4 * 5) = false →
    exec .enclen s = .refused .lengthDoesNotFit ∧
    (s.len % 4 = 0 → ∃ r, exec .encode s = .refused r ∧ (s.overlap = false → r = .lengthDoesNotFit))

/-- R75, R76; the whole-buffer form is that of R71. -/
def Obligations.EncodeTurnsSourceIntoText : Prop :=
  ∀ (s : State) (bs : List Byte), s.EncodeAdmitted → s.SrcHolds bs →
    ∃ t, exec .encode s = .next t ∧ t.activity = .idle ∧ t.regN = some (s.len / 4 * 5) ∧ t.regErr = some 0 ∧
      t.regEbyte = none ∧ (encodeBuffer s.cfg.alphabet bs).length = s.len / 4 * 5 ∧
      t.DstHolds (encodeBuffer s.cfg.alphabet bs) ∧
      ∀ k b0 b1 b2 b3, bs[4 * k]? = some b0 → bs[4 * k + 1]? = some b1 → bs[4 * k + 2]? = some b2 →
        bs[4 * k + 3]? = some b3 → ∀ i, i < 5 → t.dstByte (5 * k + i) = (encblk s.cfg.alphabet b0 b1 b2 b3)[i]?

/-- R89; the whole-buffer form is that of R81. -/
def Obligations.DecodeTurnsValidTextIntoBytes : Prop :=
  ∀ (s : State) (cs : List Byte), s.DecodeAdmitted → s.SrcHolds cs → AllValid s.cfg.alphabet cs →
    ∃ bs t, decodeBuffer s.cfg.alphabet cs = .ok bs ∧ bs.length = s.len / 5 * 4 ∧ exec .decode s = .next t ∧
      t.activity = .idle ∧ t.regN = some (s.len / 5 * 4) ∧ t.regErr = some 0 ∧ t.regEbyte = none ∧ t.DstHolds bs

/-- R90, R107. N = 0 is the spec's decision D10, the free and the untouched part of DST its decision D11 (log 16); how the free values are drawn is the model's (log 10) and holds whatever the counter and the values are. That no byte after b is read is R35 and R84. -/
def Obligations.InvalidSymbolEndsDecode : Prop :=
  ∀ (s : State) (p : Nat) (b : Byte), s.DecodeAdmitted → s.FirstInvalid p b →
    ∃ t, exec .decode s = .next t ∧ t.activity = .idle ∧ t.regN = some 0 ∧ t.regErr = some 2 ∧ t.regEbyte = some b ∧
      SameMemoryBut s t s.dstBase (4 * (p / 5)) ∧
      (∀ j, j < 4 * (p / 5) → t.dstByte j = some (Config.freeByte (s.draws + j))) ∧
      t.draws = s.draws + 4 * (p / 5) ∧ SameCommand s t

/-- R73, R86, R105 (a) and (b), R106. N = 0 is the spec's decision D10 (log 16). That overlapping buffers are refused before the length is looked at is DEDUCED (log 11). What the idle working registers hold is the model's choice (log 7), and so is the record of what has been presented (log 20). -/
def Obligations.LengthMismatchEndsAtOnce : Prop :=
  ∀ s : State, s.activity = .idle → s.overlap = false →
    (s.len % 4 ≠ 0 → ∃ t, exec .encode s = .next t ∧
      t = { s with
        result := t.result, v := State.reset.v, k := State.reset.k, i := State.reset.i,
        presented := State.reset.presented } ∧
      (s.AtRest → t = { s with result := t.result, presented := State.reset.presented }) ∧ t.regN = some 0 ∧
      t.regErr = some 1 ∧ t.regEbyte = none) ∧
    (s.len % 5 ≠ 0 → ∃ t, exec .decode s = .next t ∧
      t = { s with
        result := t.result, v := State.reset.v, k := State.reset.k, i := State.reset.i,
        presented := State.reset.presented } ∧
      (s.AtRest → t = { s with result := t.result, presented := State.reset.presented }) ∧ t.regN = some 0 ∧
      t.regErr = some 1 ∧ t.regEbyte = none)

/-- R109, R41, R105 (c), R119, R128 ("an operation started in breach of a must is refused"), decisions of the spec (D8, D9, D12). That an overlap is refused whatever LEN is, is DEDUCED (log 11); that a start on an unfilled SRC is refused whatever LEN is, is DEDUCED (log 19); the record of what has been presented is the model's (log 20), and so are the names and their order. -/
def Obligations.SmallOrOverlappingDestinationIsRefused : Prop :=
  ∀ s : State, s.activity = .idle →
    (s.overlap = true → exec .encode s = .refused .bufferOverlap ∧ exec .decode s = .refused .bufferOverlap) ∧
    (s.overlap = false → s.len % 4 = 0 → s.cfg.fits (s.len / 4 * 5) = true → s.cap < s.len / 4 * 5 →
      exec .encode s = .refused .capacityViolation) ∧
    (s.overlap = false → s.len % 5 = 0 → s.cap < s.len / 5 * 4 → exec .decode s = .refused .capacityViolation) ∧
    ∀ rest, s.host = .start :: rest →
      (¬ s.PresentedFor (decodeOp s.op) → step s = .refused .operandNotPresented) ∧
      (s.PresentedFor (decodeOp s.op) → decodeOp s.op = .encode ∨ decodeOp s.op = .decode →
        (∃ j, j < s.len ∧ s.srcByte j = none) → step s = .refused .sourceNotFilled)

/-- R109: "SRC and DST share at least one byte". One host memory for both is the model's (log 4). -/
def Obligations.OverlapMeansASharedByte : Prop :=
  ∀ s : State, s.overlap = true ↔
    ∃ a, (s.srcBase ≤ a ∧ a < s.srcBase + s.len) ∧ (s.dstBase ≤ a ∧ a < s.dstBase + s.cap)

/-- R77. -/
def Obligations.ZeroLengthEncode : Prop :=
  ∀ s : State, s.activity = .idle → s.len = 0 →
    ∃ t, exec .encode s = .next t ∧ t.mem = s.mem ∧ SameCommand s t ∧ t.regN = some 0 ∧ t.regErr = some 0 ∧
      t.regEbyte = none

/-- R91. -/
def Obligations.ZeroLengthDecode : Prop :=
  ∀ s : State, s.activity = .idle → s.len = 0 →
    ∃ t, exec .decode s = .next t ∧ t.mem = s.mem ∧ SameCommand s t ∧ t.regN = some 0 ∧ t.regErr = some 0 ∧
      t.regEbyte = none

/-- R78, R35, R106. That DST[N..CAP) keeps what it held is the spec's decision D21 (log 16). The working registers do not survive an operation (R20, R40); the values they rest at are the model's choice (log 7), and so is the record of what has been presented (log 20). -/
def Obligations.EncodeWritesOnlyItsOutput : Prop :=
  ∀ s t : State, exec .encode s = .next t →
    SameCommand s t ∧ t.draws = s.draws ∧ t.activity = .idle ∧ t.AtRest ∧ t.presented = State.reset.presented ∧
    (t.regErr = some 0 → SameMemoryBut s t s.dstBase (s.len / 4 * 5)) ∧
    (t.regErr ≠ some 0 → SameMemory s t)

/-- R92, R90, R35, R106, R107. DST[N..CAP) is D21, DST[4k..CAP) is D11 (log 16); the working registers do not survive an operation (R20, R40), the values they rest at are the model's choice (log 7), and so is the record of what has been presented (log 20). -/
def Obligations.DecodeWritesOnlyItsOutput : Prop :=
  ∀ s t : State, exec .decode s = .next t →
    SameCommand s t ∧ t.activity = .idle ∧ t.AtRest ∧ t.presented = State.reset.presented ∧
    (t.regErr = some 0 → SameMemoryBut s t s.dstBase (s.len / 5 * 4) ∧ t.draws = s.draws) ∧
    (t.regErr = some 1 → SameMemory s t ∧ t.draws = s.draws) ∧
    (t.regErr = some 2 → ∃ p b, s.FirstInvalid p b ∧ t.regEbyte = some b ∧
      SameMemoryBut s t s.dstBase (4 * (p / 5)))

/-- R64 and R21 ("The codec only reads SRC"); that the codec leaves OP, LEN and CAP alone is U9; that every operation ends idle with its result written is R120, R126 and R18. -/
def Obligations.NoOperationChangesTablesOrOperands : Prop :=
  ∀ (i : Instr) (s t : State), exec i s = .next t →
    SameCommand s t ∧ (∀ b, c2d t.cfg.alphabet b = c2d s.cfg.alphabet b) ∧
    (∀ d, a2c t.cfg.alphabet d = a2c s.cfg.alphabet d) ∧ (∀ j, j < s.len → t.srcByte j = s.srcByte j) ∧
    t.activity = .idle ∧ t.result.isSome = true

/-- R68: both write ERR = NONE, neither reads or writes SRC, DST, ALPHA or REV (with D20). What the idle working registers hold is the model's choice (log 7), and so is the record of what has been presented (log 20). -/
def Obligations.LengthFunctionsTouchNoBuffer : Prop :=
  ∀ s t : State, exec .enclen s = .next t ∨ exec .declen s = .next t →
    t = { s with
      result := t.result, v := State.reset.v, k := State.reset.k, i := State.reset.i,
      presented := State.reset.presented } ∧
    (s.AtRest → t = { s with result := t.result, presented := State.reset.presented }) ∧ t.regErr = some 0 ∧ t.regEbyte = none

/-- R101, for the operations that have an outcome (R109, R128): a misaligned one with overlapping buffers is refused, which is DEDUCED (log 11) and not claimed here. -/
def Obligations.LengthMismatchIsRaisedByMisalignmentOnly : Prop :=
  (∀ (i : Instr) (s t : State), exec i s = .next t →
    (t.regErr = some 1 ↔ (i = .encode ∧ s.len % 4 ≠ 0) ∨ (i = .decode ∧ s.len % 5 ≠ 0))) ∧
  (∀ s : State, s.activity = .idle → s.overlap = false →
    (s.len % 4 ≠ 0 → ∃ t, exec .encode s = .next t ∧ t.regErr = some 1) ∧
    (s.len % 5 ≠ 0 → ∃ t, exec .decode s = .next t ∧ t.regErr = some 1)) ∧
  (∀ (i j : Instr) (s s' t t' : State), exec i s = .next t → exec j s' = .next t' → t.regErr = some 1 →
    t'.regErr = some 1 → t.regEbyte = none ∧ t.result = t'.result)

/-- R102. -/
def Obligations.InvalidSymbolIsRaisedByDecodeOnly : Prop :=
  (∀ (i : Instr) (s t : State), exec i s = .next t → t.regErr = some 2 →
    i = .decode ∧ s.len % 5 = 0 ∧ ∃ p b, s.FirstInvalid p b ∧ t.regEbyte = some b ∧ c2d s.cfg.alphabet b = none) ∧
  (∀ (s : State) (p : Nat) (b : Byte), s.DecodeAdmitted → s.FirstInvalid p b →
    ∃ t, exec .decode s = .next t ∧ t.regErr = some 2 ∧ t.regEbyte = some b) ∧
  (∀ (i j : Instr) (s s' t t' : State), exec i s = .next t → exec j s' = .next t' → t.regErr = some 2 →
    t'.regErr = some 2 → t.regEbyte = t'.regEbyte → t.result = t'.result)

/-- R97. -/
def Obligations.SuccessfulSizesFollowTheLengthFunctions : Prop :=
  (∀ s t : State, exec .encode s = .next t → t.regErr = some 0 →
    t.regN = some (s.len / 4 * 5) ∧ 4 * (s.len / 4 * 5) = 5 * s.len) ∧
  (∀ s t : State, exec .decode s = .next t → t.regErr = some 0 → t.regN = some (s.len / 5 * 4)) ∧
  (∀ s t : State, exec .enclen s = .next t → t.regN = some (s.len / 4 * 5)) ∧
  (∀ s t : State, exec .declen s = .next t → t.regN = some (s.len / 5 * 4))

/-- R126, R103, R109, R35. That disjoint buffers are asked of a misaligned LEN too is DEDUCED (log 11); that a byte may have no value is the model's (log 5), that a start on such a SRC is refused is DEDUCED (log 19), and refusing a start on a busy instance is the model's (log 14). -/
def Obligations.ReadyOperationsComplete : Prop :=
  (∀ (i : Instr) (s : State), s.Ready i → ∃ t, exec i s = .next t ∧ t.activity = .idle ∧
    match i with
    | .enclen => t.regErr = some 0
    | .declen => t.regErr = some 0
    | .encode => (s.len % 4 = 0 → t.regErr = some 0) ∧ (s.len % 4 ≠ 0 → t.regErr = some 1)
    | .decode => (s.len % 5 ≠ 0 → t.regErr = some 1) ∧
        (s.len % 5 = 0 → (∀ j, j < s.len → ((s.srcByte j).bind (c2d s.cfg.alphabet)).isSome = true) →
          t.regErr = some 0) ∧
        (s.len % 5 = 0 → (∃ j b, j < s.len ∧ s.srcByte j = some b ∧ c2d s.cfg.alphabet b = none) →
          t.regErr = some 2)) ∧
  (∀ (i : Instr) (s : State), ¬ s.Ready i → (∃ r, exec i s = .refused r) ∨
    (exec i s = .fault .sourceByteAbsent ∧ (i = .encode ∨ i = .decode) ∧ ∃ j, j < s.len ∧ s.srcByte j = none)) ∧
  (∀ (s : State) (r : Fault), s.activity = .idle → step s ≠ .fault r)

/-- R55, R18, R57; the codes are the spec's decision D3. -/
def Obligations.ErrCodesAndPayload : Prop :=
  ∀ s : State, s.regErr ≠ some 3 ∧ (s.regN.isSome = s.regErr.isSome) ∧
    (s.regEbyte.isSome = true ↔ s.regErr = some 2)

/-- The base case of StepKeepsTheInvariant. -/
def Obligations.ResetMeetsTheInvariant : Prop :=
  State.reset.Inv

/-- R17, R18, R64, R102, R106 (N = 0 with an error is D10, log 16), R40 (the values the working registers rest at are log 7), and the canonical form of host memory (log 5). -/
def Obligations.StepKeepsTheInvariant : Prop :=
  ∀ s t : State, s.Inv → step s = .next t → t.Inv

/-- R126 "Every operation ends", R27; that an operation is one step of the model is log 1. -/
def Obligations.EveryStepEndsIdle : Prop :=
  ∀ s t : State, step s = .next t → t.activity = .idle

/-- R94 run on the machine (source test S1, program P5). -/
def Obligations.EncodeThenDecodeRestoresTheSource : Prop :=
  ∀ (s : State) (bs : List Byte) (out : Nat), s.cfg.wf = true → s.EncodeAdmitted → s.SrcHolds bs →
    ∃ t, exec .encode s = .next t ∧
      ∀ u : State, u = { t with op := 3, srcBase := s.dstBase, len := s.len / 4 * 5, dstBase := out, cap := s.len } →
        u.overlap = false →
        ∃ w, exec .decode u = .next w ∧ w.regN = some s.len ∧ w.regErr = some 0 ∧
          ∀ j, j < bs.length → w.mem.read (out + j) = bs[j]?

/-- R23, R19 "No operation reads ERR", R110 "there is no error bit to clear". -/
def Obligations.ResultRegistersCarryNothingOver : Prop :=
  ∀ (i : Instr) (s : State) (r : Option Result), exec i { s with result := r } = exec i s

/-- R23 "a function of its operands, its source buffer and the constant tables alone"; R28, R22. Ready asks disjoint buffers of a misaligned LEN too (log 11). -/
def Obligations.OutcomeDependsOnOperandsAndSourceOnly : Prop :=
  ∀ (i : Instr) (s s' t : State), s.Ready i → s'.Ready i → s'.cfg = s.cfg → s'.len = s.len →
    (∀ j, j < s.len → s'.srcByte j = s.srcByte j) → exec i s = .next t →
    ∃ t', exec i s' = .next t' ∧ t'.result = t.result ∧
      (t.regErr = some 0 → i = .encode ∨ i = .decode → ∀ n, t.regN = some n → ∀ j, j < n → t'.dstByte j = t.dstByte j)

/-- R36. After an Invalid Symbol the bytes of DST[0..4k) are free values again (R90), so nothing is said of them. -/
def Obligations.RunningTwiceGivesTheSame : Prop :=
  ∀ (i : Instr) (s t : State), exec i s = .next t →
    ∃ u, exec i t = .next u ∧ u.result = t.result ∧ (t.regErr = some 0 → SameMemory t u)

/-- R80, derived by the spec from R71 and R75; R14 for the block index. -/
def Obligations.StepViewOfEncode : Prop :=
  (∀ (s : State) (b0 b1 b2 b3 : Byte), s.activity = .running → s.k < s.len / 4 → s.srcByte (4 * s.k) = some b0 →
    s.srcByte (4 * s.k + 1) = some b1 → s.srcByte (4 * s.k + 2) = some b2 → s.srcByte (4 * s.k + 3) = some b3 →
    ∃ t, encodeStep s = .next t ∧ t.activity = .running ∧ t.k = s.k + 1 ∧ t.v = pack b0 b1 b2 b3 ∧
      t.result = s.result ∧ SameCommand s t ∧ SameMemoryBut s t (s.dstBase + 5 * s.k) 5 ∧
      ∀ j, j < 5 → t.dstByte (5 * s.k + j) = (encblk s.cfg.alphabet b0 b1 b2 b3)[j]?) ∧
  (∀ s : State, s.k = s.len / 4 → ∃ t, encodeStep s = .next t ∧ t.activity = .idle ∧
    t.regN = some (s.len / 4 * 5) ∧ t.regErr = some 0 ∧ t.mem = s.mem) ∧
  (∀ (s : State) (bs : List Byte), s.EncodeAdmitted → s.SrcHolds bs →
    (∀ n, n ≤ s.len / 4 → ∃ u, drive encodeStep n s.begin = .next u ∧ u.activity = .running ∧ u.k = n) ∧
    exec .encode s = drive encodeStep (s.len / 4 + 1) s.begin)

/-- R93, derived by the spec; N = 0 with an error is D10, the free part of DST is D11 (log 16). -/
def Obligations.StepViewOfDecode : Prop :=
  (∀ (s : State) (c0 c1 c2 c3 c4 : Byte), s.activity = .running → s.k < s.len / 5 → s.srcByte (5 * s.k) = some c0 →
    s.srcByte (5 * s.k + 1) = some c1 → s.srcByte (5 * s.k + 2) = some c2 → s.srcByte (5 * s.k + 3) = some c3 →
    s.srcByte (5 * s.k + 4) = some c4 →
    (∀ bs, decblk s.cfg.alphabet c0 c1 c2 c3 c4 = .ok bs →
      ∃ t, decodeStep s = .next t ∧ t.activity = .running ∧ t.k = s.k + 1 ∧ t.result = s.result ∧ SameCommand s t ∧
        SameMemoryBut s t (s.dstBase + 4 * s.k) 4 ∧ ∀ j, j < 4 → t.dstByte (4 * s.k + j) = bs[j]?) ∧
    (∀ b, decblk s.cfg.alphabet c0 c1 c2 c3 c4 = .error b →
      ∃ t, decodeStep s = .next t ∧ t.activity = .idle ∧ t.regN = some 0 ∧ t.regErr = some 2 ∧ t.regEbyte = some b ∧
        SameCommand s t ∧ SameMemoryBut s t s.dstBase (4 * s.k))) ∧
  (∀ s : State, s.k = s.len / 5 → ∃ t, decodeStep s = .next t ∧ t.activity = .idle ∧
    t.regN = some (s.len / 5 * 4) ∧ t.regErr = some 0 ∧ t.mem = s.mem) ∧
  (∀ s : State, s.DecodeAdmitted → exec .decode s = drive decodeStep (s.len / 5 + 1) s.begin)

/-- The model's canonical form of host memory (log 5). -/
def Obligations.EqualMemoriesAreEqualData : Prop :=
  ∀ m m' : Memory, m.wf → m'.wf → (∀ a, m.read a = m'.read a) → m = m'

/-- R40; overview table of 10_state.md (V, k and i do not survive an operation). The values they rest at are the model's choice (log 7), and so are the counter (log 10) and the record of what has been presented (log 20). -/
def Obligations.EndedOperationKeepsNothingOfTheBuffers : Prop :=
  (∀ (i : Instr) (s t : State), exec i s = .next t → t.AtRest ∧ t.presented = State.reset.presented) ∧
  (∀ (i : Instr) (s t t' : State) (m : Memory), exec i s = .next t → exec i { s with mem := m } = .next t' →
    t' = { t with mem := t'.mem, result := t'.result, draws := t'.draws })
end

