-- ==== Sys2Proof/Laws/Alphabet.lean ====
section
/-! SUPPORT. The two look-ups: what C2D can answer, for any alphabet and for one with distinct entries. -/

namespace Sys2Proof.Machine

theorem a2c_of_c2d {al : Alphabet} {b : Byte} {d : Digit} (h : c2d al b = some d) : a2c al d = b := by
  simpa using List.find?_some h

theorem c2d_eq_none_iff {al : Alphabet} {b : Byte} : c2d al b = none ↔ ∀ d, a2c al d ≠ b := by
  simp [c2d]

theorem a2c_injective {al : Alphabet} (h : al.distinct = true) {d e : Digit} (he : a2c al d = a2c al e) : d = e := by
  have hn : al.toList.Nodup := by simpa [Alphabet.distinct] using h
  have := (List.Nodup.getElem_inj_iff hn (i := d.val) (j := e.val) (hi := by simp) (hj := by simp)).1
    (by simpa [a2c] using he)
  exact Fin.ext this

theorem c2d_a2c {al : Alphabet} (h : al.distinct = true) (d : Digit) : c2d al (a2c al d) = some d := by
  cases hc : c2d al (a2c al d) with
  | none => exact absurd rfl (c2d_eq_none_iff.1 hc d)
  | some e => rw [a2c_injective h (a2c_of_c2d hc)]

theorem Alphabet.wf_distinct {al : Alphabet} (h : al.wf = true) : al.distinct = true := by
  simp only [Alphabet.wf, Bool.and_eq_true] at h
  exact h.1.1.1.1

theorem Config.wf_distinct {c : Config} (h : c.wf = true) : c.alphabet.distinct = true := by
  simp only [Config.wf, Bool.and_eq_true] at h
  exact Alphabet.wf_distinct h.2

/-- Condition (e) of R49 can fail for no alphabet: 85 entries do not fill the 93 codes of the span. -/
theorem Alphabet.hasGap_always (al : Alphabet) : al.hasGap = true := by
  by_contra h
  have hsub : Finset.Icc 33 125 ⊆ (al.toList.map BitVec.toNat).toFinset := by
    intro n hn
    rw [Finset.mem_Icc] at hn
    simp only [Alphabet.hasGap, spanMin, spanMax, List.any_eq_true, not_exists, not_and] at h
    have := h n (List.mem_range.2 (by omega))
    obtain ⟨x, hx, he⟩ : ∃ (x : Nat) (h : x < 85), (al[x]'h : Byte).toNat = n := by simpa [hn.1] using this
    exact List.mem_toFinset.2 (List.mem_map.2 ⟨al[x], by simp, he⟩)
  have := (Finset.card_le_card hsub).trans (List.toFinset_card_le _)
  simp at this

theorem Config.fits_mono {c : Config} {m n : Nat} (h : m ≤ n) (hn : c.fits n = true) : c.fits m = true := by
  unfold Config.fits at *
  split at hn <;> simp_all
  omega

end Sys2Proof.Machine
end

