-- ==== Sys2Proof/Laws/Arithmetic.lean ====
section
/-! SUPPORT. PACK, UNPACK, DIGITS and ACC as arithmetic on naturals. -/

namespace Sys2Proof.Machine

theorem pack_toNat (b0 b1 b2 b3 : Byte) :
    (pack b0 b1 b2 b3).toNat = b0.toNat * 16777216 + b1.toNat * 65536 + b2.toNat * 256 + b3.toNat := by
  have h0 := b0.isLt
  have h1 := b1.isLt
  have h2 := b2.isLt
  have h3 := b3.isLt
  have e1 : b0.toNat <<< 24 ||| b1.toNat <<< 16 = (b0.toNat * 256 + b1.toNat) <<< 16 := by
    rw [← Nat.shiftLeft_add_eq_or_of_lt (by rw [Nat.shiftLeft_eq]; omega)]
    simp only [Nat.shiftLeft_eq]; ring
  have e2 : (b0.toNat * 256 + b1.toNat) <<< 16 ||| b2.toNat <<< 8 =
      (b0.toNat * 65536 + b1.toNat * 256 + b2.toNat) <<< 8 := by
    rw [← Nat.shiftLeft_add_eq_or_of_lt (by rw [Nat.shiftLeft_eq]; omega)]
    simp only [Nat.shiftLeft_eq]; ring
  have e3 : (b0.toNat * 65536 + b1.toNat * 256 + b2.toNat) <<< 8 ||| b3.toNat =
      b0.toNat * 16777216 + b1.toNat * 65536 + b2.toNat * 256 + b3.toNat := by
    rw [← Nat.shiftLeft_add_eq_or_of_lt (by omega)]
    simp only [Nat.shiftLeft_eq]; ring
  have m (b : Byte) (n : Nat) (hn : n ≤ 24) : b.toNat <<< n % 4294967296 = b.toNat <<< n := by
    refine Nat.mod_eq_of_lt ?_
    have hb := b.isLt
    calc b.toNat <<< n = b.toNat * 2 ^ n := Nat.shiftLeft_eq ..
      _ ≤ b.toNat * 2 ^ 24 := Nat.mul_le_mul_left _ (Nat.pow_le_pow_right (by omega) hn)
      _ < 4294967296 := by omega
  have s (b : Byte) : (b.setWidth 32).toNat = b.toNat := by
    have := b.isLt; simp only [BitVec.toNat_setWidth]; omega
  simp only [pack, BitVec.toNat_or, BitVec.toNat_shiftLeft, s, Nat.reducePow, m _ 24 (by omega), m _ 16 (by omega),
    m _ 8 (by omega), e1, e2, e3]

theorem unpack_length (v : Value) : (unpack v).length = 4 := rfl

theorem unpack_pack (b0 b1 b2 b3 : Byte) : unpack (pack b0 b1 b2 b3) = [b0, b1, b2, b3] := by
  have h0 := b0.isLt
  have h1 := b1.isLt
  have h2 := b2.isLt
  have h3 := b3.isLt
  simp only [unpack, List.cons.injEq, and_true]
  refine ⟨?_, ?_, ?_, ?_⟩ <;> apply BitVec.eq_of_toNat_eq <;>
    simp only [BitVec.toNat_setWidth, BitVec.toNat_ushiftRight, pack_toNat, Nat.shiftRight_eq_div_pow] <;> omega

/-- The four bytes UNPACK gives are the base-256 digits of the value. -/
theorem unpack_toNat (v : Value) : (unpack v).map BitVec.toNat =
    [v.toNat / 16777216, v.toNat / 65536 % 256, v.toNat / 256 % 256, v.toNat % 256] := by
  have := v.isLt
  simp only [unpack, List.map_cons, List.map_nil, BitVec.toNat_setWidth, BitVec.toNat_ushiftRight,
    Nat.shiftRight_eq_div_pow, List.cons.injEq, and_true]
  omega

theorem pack_unpack (v : Value) :
    pack ((v >>> 24).setWidth 8) ((v >>> 16).setWidth 8) ((v >>> 8).setWidth 8) (v.setWidth 8) = v := by
  have := v.isLt
  apply BitVec.eq_of_toNat_eq
  simp only [pack_toNat, BitVec.toNat_setWidth, BitVec.toNat_ushiftRight, Nat.shiftRight_eq_div_pow]
  omega

theorem digitAt_val (v : Value) (i : Fin 5) : (digitAt v i).val = v.toNat / 85 ^ (4 - i.val) % 85 := rfl

theorem digits_eq (v : Value) : digits v = [digitAt v 0, digitAt v 1, digitAt v 2, digitAt v 3, digitAt v 4] := rfl

theorem digits_length (v : Value) : (digits v).length = 5 := rfl

theorem digitSum_digits (v : Value) : digitSum (digits v) = v.toNat := by
  have := v.isLt
  simp only [digits_eq, digitSum, List.foldl_cons, List.foldl_nil, digitAt_val, Fin.val_zero, Fin.val_one,
    show ((2 : Fin 5) : Nat) = 2 from rfl, show ((3 : Fin 5) : Nat) = 3 from rfl, show ((4 : Fin 5) : Nat) = 4 from rfl]
  norm_num
  omega

theorem accStep_toNat (v : Value) (d : Digit) : (accStep v d).toNat = (v.toNat * 85 + d.val) % 2 ^ 32 := by
  have := d.isLt
  simp [accStep, BitVec.toNat_add, BitVec.toNat_mul]

theorem acc_toNat (ds : List Digit) : (acc ds).toNat = digitSum ds % 2 ^ 32 := by
  have general : ∀ (v : Value) (n : Nat), v.toNat = n % 2 ^ 32 →
      (ds.foldl accStep v).toNat = (ds.foldl (fun n d => n * 85 + d.val) n) % 2 ^ 32 := by
    induction ds with
    | nil => intro v n h; simpa using h
    | cons d ds ih =>
      intro v n h
      exact ih _ _ (by rw [accStep_toNat, h, Nat.add_mod, Nat.mod_mul_mod, ← Nat.add_mod])
  exact general 0 0 rfl

theorem acc_digits (v : Value) : acc (digits v) = v := by
  apply BitVec.eq_of_toNat_eq
  rw [acc_toNat, digitSum_digits, Nat.mod_eq_of_lt v.isLt]

/-- The loop of DECBLK over valid characters is the loop of ACC. -/
theorem decAccumulate_map_a2c {al : Alphabet} (h : al.distinct = true) (ds : List Digit) (v : Value) :
    decAccumulate al v (ds.map (a2c al)) = .ok (ds.foldl accStep v) := by
  induction ds generalizing v with
  | nil => rfl
  | cons d ds ih => simp [decAccumulate, c2d_a2c h, ih]

theorem encblk_length (al : Alphabet) (b0 b1 b2 b3 : Byte) : (encblk al b0 b1 b2 b3).length = 5 := rfl

theorem encodeBuffer_length (al : Alphabet) (bs : List Byte) (n : Nat) (h : bs.length = 4 * n) :
    (encodeBuffer al bs).length = 5 * n := by
  induction n generalizing bs with
  | zero => rw [List.eq_nil_of_length_eq_zero (by omega : bs.length = 0)]; rfl
  | succ n ih =>
    match bs, h with
    | b0 :: b1 :: b2 :: b3 :: rest, h =>
      simp only [List.length_cons] at h
      simp only [encodeBuffer, List.length_append, encblk_length, ih rest (by omega)]
      omega

end Sys2Proof.Machine
end

