-- ==== Sys2Proof/Laws/Memory.lean ====
section
/-! SUPPORT. Host memory: reading after writing, and the canonical form. -/

namespace Sys2Proof.Machine.Memory

theorem read_write (m : Memory) (a x : Nat) (b : Byte) :
    (m.write a b).read x = if x = a then some b else m.read x := by
  induction m with
  | nil => simp only [write, read, eq_comm]
  | cons c m ih =>
    unfold write
    split_ifs with h1 h2 h3 h4 h5
    all_goals simp only [read, ih]
    all_goals grind

@[simp] theorem read_write_same (m : Memory) (a : Nat) (b : Byte) : (m.write a b).read a = some b := by
  simp [read_write]

theorem read_write_other (m : Memory) {a x : Nat} (b : Byte) (h : x ≠ a) : (m.write a b).read x = m.read x := by
  simp [read_write, h]

/-- Everything a run of byte writes can do. -/
theorem read_writeList (m : Memory) (a x : Nat) (bs : List Byte) :
    (m.writeList a bs).read x = if a ≤ x ∧ x < a + bs.length then bs[x - a]? else m.read x := by
  induction bs generalizing m a with
  | nil => simp [writeList]
  | cons b bs ih =>
    rw [writeList, ih, read_write]
    rcases lt_trichotomy x a with h | h | h
    · simp [show ¬ a + 1 ≤ x by omega, show ¬ a ≤ x by omega, show x ≠ a by omega]
    · subst h; simp
    · have : x - a = x - (a + 1) + 1 := by omega
      simp [show x ≠ a by omega, this, show a + 1 ≤ x by omega, show a ≤ x by omega,
        show x < a + 1 + bs.length ↔ x < a + (bs.length + 1) by omega]

theorem read_writeList_inside (m : Memory) (a j : Nat) (bs : List Byte) (h : j < bs.length) :
    (m.writeList a bs).read (a + j) = bs[j]? := by
  simp [read_writeList, h]

theorem read_writeList_outside (m : Memory) (a x : Nat) (bs : List Byte) (h : ¬ (a ≤ x ∧ x < a + bs.length)) :
    (m.writeList a bs).read x = m.read x := by
  simp only [read_writeList, h, if_false]

theorem writeList_append (m : Memory) (a : Nat) (xs ys : List Byte) :
    m.writeList a (xs ++ ys) = (m.writeList a xs).writeList (a + xs.length) ys := by
  induction xs generalizing m a with
  | nil => simp [writeList]
  | cons x xs ih => simp [writeList, ih, Nat.add_assoc, Nat.add_comm 1]

theorem mem_write_key {m : Memory} {a : Nat} {b : Byte} {c : Host.Cell} (h : c ∈ m.write a b) : c = (a, b) ∨ c ∈ m := by
  induction m with
  | nil => simpa [write] using h
  | cons d m ih =>
    unfold write at h
    split_ifs at h with h1 h2
    · simpa using h
    · rcases List.mem_cons.1 h with h | h
      · exact .inl h
      · exact .inr (List.mem_cons_of_mem _ h)
    · rcases List.mem_cons.1 h with h | h
      · exact .inr (h ▸ List.mem_cons_self)
      · rcases ih h with h | h
        · exact .inl h
        · exact .inr (List.mem_cons_of_mem _ h)

/-- A write keeps the canonical form. -/
theorem write_wf {m : Memory} (a : Nat) (b : Byte) (h : m.wf) : (m.write a b).wf := by
  induction m with
  | nil => simp [write, wf]
  | cons c m ih =>
    have hc := List.pairwise_cons.1 h
    unfold write
    split_ifs with h1 h2
    · refine List.pairwise_cons.2 ⟨fun x hx => ?_, h⟩
      rcases List.mem_cons.1 hx with rfl | hx
      · exact h1
      · exact lt_trans h1 (hc.1 x hx)
    · exact List.pairwise_cons.2 ⟨fun x hx => h2 ▸ hc.1 x hx, hc.2⟩
    · refine List.pairwise_cons.2 ⟨fun x hx => ?_, ih hc.2⟩
      rcases mem_write_key hx with rfl | hx
      · show c.1 < a; omega
      · exact hc.1 x hx

theorem writeList_wf {m : Memory} (a : Nat) (bs : List Byte) (h : m.wf) : (m.writeList a bs).wf := by
  induction bs generalizing m a with
  | nil => exact h
  | cons b bs ih => exact ih _ (write_wf a b h)

end Sys2Proof.Machine.Memory
end

