-- ==== Sys2Proof/Laws/State.lean ====
section
/-! SUPPORT. One lemma per field and per update of the state, so that no proof unfolds an update. -/

namespace Sys2Proof.Machine.State

variable (s : State)

@[simp] theorem begin_cfg : s.begin.cfg = s.cfg := rfl
@[simp] theorem begin_op : s.begin.op = s.op := rfl
@[simp] theorem begin_len : s.begin.len = s.len := rfl
@[simp] theorem begin_cap : s.begin.cap = s.cap := rfl
@[simp] theorem begin_result : s.begin.result = s.result := rfl
@[simp] theorem begin_v : s.begin.v = s.v := rfl
@[simp] theorem begin_k : s.begin.k = 0 := rfl
@[simp] theorem begin_i : s.begin.i = s.i := rfl
@[simp] theorem begin_activity : s.begin.activity = .running := rfl
@[simp] theorem begin_srcBase : s.begin.srcBase = s.srcBase := rfl
@[simp] theorem begin_dstBase : s.begin.dstBase = s.dstBase := rfl
@[simp] theorem begin_mem : s.begin.mem = s.mem := rfl
@[simp] theorem begin_presented : s.begin.presented = s.presented := rfl
@[simp] theorem begin_draws : s.begin.draws = s.draws := rfl
@[simp] theorem begin_host : s.begin.host = s.host := rfl

@[simp] theorem finish_cfg (r : Result) : (s.finish r).cfg = s.cfg := rfl
@[simp] theorem finish_op (r : Result) : (s.finish r).op = s.op := rfl
@[simp] theorem finish_len (r : Result) : (s.finish r).len = s.len := rfl
@[simp] theorem finish_cap (r : Result) : (s.finish r).cap = s.cap := rfl
@[simp] theorem finish_result (r : Result) : (s.finish r).result = some r := rfl
@[simp] theorem finish_v (r : Result) : (s.finish r).v = 0 := rfl
@[simp] theorem finish_k (r : Result) : (s.finish r).k = 0 := rfl
@[simp] theorem finish_i (r : Result) : (s.finish r).i = 0 := rfl
@[simp] theorem finish_activity (r : Result) : (s.finish r).activity = .idle := rfl
@[simp] theorem finish_srcBase (r : Result) : (s.finish r).srcBase = s.srcBase := rfl
@[simp] theorem finish_dstBase (r : Result) : (s.finish r).dstBase = s.dstBase := rfl
@[simp] theorem finish_mem (r : Result) : (s.finish r).mem = s.mem := rfl
@[simp] theorem finish_presented (r : Result) : (s.finish r).presented = State.reset.presented := rfl
@[simp] theorem finish_draws (r : Result) : (s.finish r).draws = s.draws := rfl
@[simp] theorem finish_host (r : Result) : (s.finish r).host = s.host := rfl

@[simp] theorem raise_cfg (e : Err) : (s.raise e).cfg = s.cfg := rfl
@[simp] theorem raise_op (e : Err) : (s.raise e).op = s.op := rfl
@[simp] theorem raise_len (e : Err) : (s.raise e).len = s.len := rfl
@[simp] theorem raise_cap (e : Err) : (s.raise e).cap = s.cap := rfl
@[simp] theorem raise_result (e : Err) : (s.raise e).result = some ⟨0, e⟩ := rfl
@[simp] theorem raise_v (e : Err) : (s.raise e).v = 0 := rfl
@[simp] theorem raise_k (e : Err) : (s.raise e).k = 0 := rfl
@[simp] theorem raise_i (e : Err) : (s.raise e).i = 0 := rfl
@[simp] theorem raise_activity (e : Err) : (s.raise e).activity = .idle := rfl
@[simp] theorem raise_srcBase (e : Err) : (s.raise e).srcBase = s.srcBase := rfl
@[simp] theorem raise_dstBase (e : Err) : (s.raise e).dstBase = s.dstBase := rfl
@[simp] theorem raise_mem (e : Err) : (s.raise e).mem = s.mem := rfl
@[simp] theorem raise_presented (e : Err) : (s.raise e).presented = State.reset.presented := rfl
@[simp] theorem raise_draws (e : Err) : (s.raise e).draws = s.draws := rfl
@[simp] theorem raise_host (e : Err) : (s.raise e).host = s.host := rfl

@[simp] theorem dstWrite_cfg (j : Nat) (bs : List Byte) : (s.dstWrite j bs).cfg = s.cfg := rfl
@[simp] theorem dstWrite_op (j : Nat) (bs : List Byte) : (s.dstWrite j bs).op = s.op := rfl
@[simp] theorem dstWrite_len (j : Nat) (bs : List Byte) : (s.dstWrite j bs).len = s.len := rfl
@[simp] theorem dstWrite_cap (j : Nat) (bs : List Byte) : (s.dstWrite j bs).cap = s.cap := rfl
@[simp] theorem dstWrite_result (j : Nat) (bs : List Byte) : (s.dstWrite j bs).result = s.result := rfl
@[simp] theorem dstWrite_v (j : Nat) (bs : List Byte) : (s.dstWrite j bs).v = s.v := rfl
@[simp] theorem dstWrite_k (j : Nat) (bs : List Byte) : (s.dstWrite j bs).k = s.k := rfl
@[simp] theorem dstWrite_i (j : Nat) (bs : List Byte) : (s.dstWrite j bs).i = s.i := rfl
@[simp] theorem dstWrite_activity (j : Nat) (bs : List Byte) : (s.dstWrite j bs).activity = s.activity := rfl
@[simp] theorem dstWrite_srcBase (j : Nat) (bs : List Byte) : (s.dstWrite j bs).srcBase = s.srcBase := rfl
@[simp] theorem dstWrite_dstBase (j : Nat) (bs : List Byte) : (s.dstWrite j bs).dstBase = s.dstBase := rfl
@[simp] theorem dstWrite_mem (j : Nat) (bs : List Byte) : (s.dstWrite j bs).mem = s.mem.writeList (s.dstBase + j) bs := rfl
@[simp] theorem dstWrite_presented (j : Nat) (bs : List Byte) : (s.dstWrite j bs).presented = s.presented := rfl
@[simp] theorem dstWrite_draws (j : Nat) (bs : List Byte) : (s.dstWrite j bs).draws = s.draws := rfl
@[simp] theorem dstWrite_host (j : Nat) (bs : List Byte) : (s.dstWrite j bs).host = s.host := rfl

@[simp] theorem forgetDst_cfg (n : Nat) : (s.forgetDst n).cfg = s.cfg := rfl
@[simp] theorem forgetDst_op (n : Nat) : (s.forgetDst n).op = s.op := rfl
@[simp] theorem forgetDst_len (n : Nat) : (s.forgetDst n).len = s.len := rfl
@[simp] theorem forgetDst_cap (n : Nat) : (s.forgetDst n).cap = s.cap := rfl
@[simp] theorem forgetDst_result (n : Nat) : (s.forgetDst n).result = s.result := rfl
@[simp] theorem forgetDst_v (n : Nat) : (s.forgetDst n).v = s.v := rfl
@[simp] theorem forgetDst_k (n : Nat) : (s.forgetDst n).k = s.k := rfl
@[simp] theorem forgetDst_i (n : Nat) : (s.forgetDst n).i = s.i := rfl
@[simp] theorem forgetDst_activity (n : Nat) : (s.forgetDst n).activity = s.activity := rfl
@[simp] theorem forgetDst_srcBase (n : Nat) : (s.forgetDst n).srcBase = s.srcBase := rfl
@[simp] theorem forgetDst_dstBase (n : Nat) : (s.forgetDst n).dstBase = s.dstBase := rfl
@[simp] theorem forgetDst_mem (n : Nat) : (s.forgetDst n).mem = s.mem.writeList (s.dstBase + 0) (freeBytes s.draws n) := rfl
@[simp] theorem forgetDst_presented (n : Nat) : (s.forgetDst n).presented = s.presented := rfl
@[simp] theorem forgetDst_draws (n : Nat) : (s.forgetDst n).draws = s.draws + n := rfl
@[simp] theorem forgetDst_host (n : Nat) : (s.forgetDst n).host = s.host := rfl

@[simp] theorem raiseInvalid_cfg (b : Byte) : (s.raiseInvalid b).cfg = s.cfg := rfl
@[simp] theorem raiseInvalid_op (b : Byte) : (s.raiseInvalid b).op = s.op := rfl
@[simp] theorem raiseInvalid_len (b : Byte) : (s.raiseInvalid b).len = s.len := rfl
@[simp] theorem raiseInvalid_cap (b : Byte) : (s.raiseInvalid b).cap = s.cap := rfl
@[simp] theorem raiseInvalid_result (b : Byte) : (s.raiseInvalid b).result = some ⟨0, .invalid b⟩ := rfl
@[simp] theorem raiseInvalid_v (b : Byte) : (s.raiseInvalid b).v = 0 := rfl
@[simp] theorem raiseInvalid_k (b : Byte) : (s.raiseInvalid b).k = 0 := rfl
@[simp] theorem raiseInvalid_i (b : Byte) : (s.raiseInvalid b).i = 0 := rfl
@[simp] theorem raiseInvalid_activity (b : Byte) : (s.raiseInvalid b).activity = .idle := rfl
@[simp] theorem raiseInvalid_srcBase (b : Byte) : (s.raiseInvalid b).srcBase = s.srcBase := rfl
@[simp] theorem raiseInvalid_dstBase (b : Byte) : (s.raiseInvalid b).dstBase = s.dstBase := rfl
@[simp] theorem raiseInvalid_mem (b : Byte) : (s.raiseInvalid b).mem = s.mem.writeList (s.dstBase + 0) (freeBytes s.draws (4 * s.k)) := rfl
@[simp] theorem raiseInvalid_presented (b : Byte) : (s.raiseInvalid b).presented = State.reset.presented := rfl
@[simp] theorem raiseInvalid_draws (b : Byte) : (s.raiseInvalid b).draws = s.draws + 4 * s.k := rfl
@[simp] theorem raiseInvalid_host (b : Byte) : (s.raiseInvalid b).host = s.host := rfl

@[simp] theorem emitValue_cfg : s.emitValue.cfg = s.cfg := rfl
@[simp] theorem emitValue_op : s.emitValue.op = s.op := rfl
@[simp] theorem emitValue_len : s.emitValue.len = s.len := rfl
@[simp] theorem emitValue_cap : s.emitValue.cap = s.cap := rfl
@[simp] theorem emitValue_result : s.emitValue.result = s.result := rfl
@[simp] theorem emitValue_v : s.emitValue.v = s.v := rfl
@[simp] theorem emitValue_k : s.emitValue.k = s.k + 1 := rfl
@[simp] theorem emitValue_i : s.emitValue.i = s.i := rfl
@[simp] theorem emitValue_activity : s.emitValue.activity = s.activity := rfl
@[simp] theorem emitValue_srcBase : s.emitValue.srcBase = s.srcBase := rfl
@[simp] theorem emitValue_dstBase : s.emitValue.dstBase = s.dstBase := rfl
@[simp] theorem emitValue_mem : s.emitValue.mem = s.mem.writeList (s.dstBase + 4 * s.k) (unpack s.v) := rfl
@[simp] theorem emitValue_presented : s.emitValue.presented = s.presented := rfl
@[simp] theorem emitValue_draws : s.emitValue.draws = s.draws := rfl
@[simp] theorem emitValue_host : s.emitValue.host = s.host := rfl

@[simp] theorem reset_op : State.reset.op = 0 := rfl
@[simp] theorem reset_len : State.reset.len = 0 := rfl
@[simp] theorem reset_cap : State.reset.cap = 0 := rfl
@[simp] theorem reset_result : State.reset.result = none := rfl
@[simp] theorem reset_v : State.reset.v = 0 := rfl
@[simp] theorem reset_k : State.reset.k = 0 := rfl
@[simp] theorem reset_i : State.reset.i = 0 := rfl
@[simp] theorem reset_activity : State.reset.activity = .idle := rfl
@[simp] theorem reset_mem : State.reset.mem = [] := rfl
@[simp] theorem reset_presented : State.reset.presented = ⟨false, false, false, false, false⟩ := rfl
@[simp] theorem reset_host : State.reset.host = [] := rfl

@[simp] theorem resetCodec_cfg : s.resetCodec.cfg = s.cfg := rfl
@[simp] theorem resetCodec_op : s.resetCodec.op = 0 := rfl
@[simp] theorem resetCodec_len : s.resetCodec.len = 0 := rfl
@[simp] theorem resetCodec_cap : s.resetCodec.cap = 0 := rfl
@[simp] theorem resetCodec_result : s.resetCodec.result = none := rfl
@[simp] theorem resetCodec_v : s.resetCodec.v = 0 := rfl
@[simp] theorem resetCodec_k : s.resetCodec.k = 0 := rfl
@[simp] theorem resetCodec_i : s.resetCodec.i = 0 := rfl
@[simp] theorem resetCodec_activity : s.resetCodec.activity = .idle := rfl
@[simp] theorem resetCodec_srcBase : s.resetCodec.srcBase = s.srcBase := rfl
@[simp] theorem resetCodec_dstBase : s.resetCodec.dstBase = s.dstBase := rfl
@[simp] theorem resetCodec_mem : s.resetCodec.mem = s.mem := rfl
@[simp] theorem resetCodec_presented : s.resetCodec.presented = State.reset.presented := rfl
@[simp] theorem resetCodec_draws : s.resetCodec.draws = s.draws := rfl
@[simp] theorem resetCodec_host : s.resetCodec.host = s.host := rfl

end Sys2Proof.Machine.State
end

