-- ==== Sys2Proof/Laws/Encoder.lean ====
section
/-! SUPPORT. What the checks can answer, what one block of ENCODE does, what a run of ENCODE does. -/

namespace Sys2Proof.Machine

theorem whenIdle_idle {s : State} (o : Out) (h : s.activity = .idle) : whenIdle s o = o := by simp [whenIdle, h]

theorem whenIdle_running {s : State} (o : Out) (h : s.activity = .running) :
    whenIdle s o = .refused .instanceBusy := by simp [whenIdle, h]

/-- Only an idle instance gives a next state. -/
theorem whenIdle_next {s t : State} {o : Out} (h : whenIdle s o = .next t) : s.activity = .idle ∧ o = .next t := by
  cases ha : s.activity <;> simp_all [whenIdle]

/-- The check that SRC is filled says what R119 (a) asks. -/
theorem filledTo_iff (s : State) (n : Nat) : s.filledTo n = true ↔ ∀ j, j < n → (s.srcByte j).isSome = true := by
  induction n with
  | zero => simp [State.filledTo]
  | succ n ih => simp only [State.filledTo, Bool.and_eq_true, ih, Nat.lt_succ_iff_lt_or_eq, or_imp, forall_and,
      forall_eq, and_comm]

/-- All that the checks let through. -/
theorem checked_next {s t : State} {block need : Nat} {fit : Bool} {run : State → Out}
    (h : checked s block need fit run = .next t) :
    s.overlap = false ∧ ((s.len % block ≠ 0 ∧ t = s.raise .length) ∨
    (s.len % block = 0 ∧ fit = true ∧ need ≤ s.cap ∧ run s.begin = .next t)) := by
  unfold checked at h
  split_ifs at h with ho h1 h2 h3
  · exact ⟨by simpa using ho, .inl ⟨h1, by simpa [eq_comm] using h⟩⟩
  · exact ⟨by simpa using ho, .inr ⟨by omega, by simpa using h2, by omega, h⟩⟩

theorem checked_overlap {s : State} (block need : Nat) (fit : Bool) (run : State → Out) (h : s.overlap = true) :
    checked s block need fit run = .refused .bufferOverlap := by simp [checked, h]

theorem checked_misaligned {s : State} {block : Nat} (need : Nat) (fit : Bool) (run : State → Out)
    (h : s.overlap = false) (h1 : s.len % block ≠ 0) :
    checked s block need fit run = .next (s.raise .length) := by simp [checked, h, h1]

theorem checked_pass {s : State} {block need : Nat} {fit : Bool} (run : State → Out) (h : s.overlap = false)
    (h1 : s.len % block = 0) (h2 : fit = true) (h3 : need ≤ s.cap) : checked s block need fit run = run s.begin := by
  simp [checked, h, h1, h2, Nat.not_lt.2 h3]

theorem drive_goes_on {f : State → Out} {s t : State} (n : Nat) (h : f s = .next t) (ht : t.activity = .running) :
    drive f (n + 1) s = drive f n t := by
  simp [drive, h, ht]

theorem drive_ends {f : State → Out} {s t : State} (n : Nat) (h : f s = .next t) (ht : t.activity = .idle) :
    drive f (n + 1) s = .next t := by
  simp [drive, h, ht]

/-- What disjoint buffers mean for one address of each. -/
theorem disjoint_of_overlap {s : State} (h : s.overlap = false) {x y : Nat} (hx : x < s.len) (hy : y < s.cap) :
    s.srcBase + x ≠ s.dstBase + y := by
  simp only [State.overlap, decide_eq_false_iff_not] at h
  omega

/-- A running ENCODE after the block `b0 b1 b2 b3`. -/
def State.encoded (s : State) (b0 b1 b2 b3 : Byte) : State :=
  { s with
    v := pack b0 b1 b2 b3, i := 4, k := s.k + 1,
    mem := s.mem.writeList (s.dstBase + 5 * s.k) (encblk s.cfg.alphabet b0 b1 b2 b3) }

section
variable (s : State) (b0 b1 b2 b3 : Byte)
@[simp] theorem State.encoded_cfg : (s.encoded b0 b1 b2 b3).cfg = s.cfg := rfl
@[simp] theorem State.encoded_op : (s.encoded b0 b1 b2 b3).op = s.op := rfl
@[simp] theorem State.encoded_len : (s.encoded b0 b1 b2 b3).len = s.len := rfl
@[simp] theorem State.encoded_cap : (s.encoded b0 b1 b2 b3).cap = s.cap := rfl
@[simp] theorem State.encoded_result : (s.encoded b0 b1 b2 b3).result = s.result := rfl
@[simp] theorem State.encoded_v : (s.encoded b0 b1 b2 b3).v = pack b0 b1 b2 b3 := rfl
@[simp] theorem State.encoded_k : (s.encoded b0 b1 b2 b3).k = s.k + 1 := rfl
@[simp] theorem State.encoded_i : (s.encoded b0 b1 b2 b3).i = 4 := rfl
@[simp] theorem State.encoded_activity : (s.encoded b0 b1 b2 b3).activity = s.activity := rfl
@[simp] theorem State.encoded_srcBase : (s.encoded b0 b1 b2 b3).srcBase = s.srcBase := rfl
@[simp] theorem State.encoded_dstBase : (s.encoded b0 b1 b2 b3).dstBase = s.dstBase := rfl
@[simp] theorem State.encoded_mem : (s.encoded b0 b1 b2 b3).mem = s.mem.writeList (s.dstBase + 5 * s.k) (encblk s.cfg.alphabet b0 b1 b2 b3) := rfl
@[simp] theorem State.encoded_presented : (s.encoded b0 b1 b2 b3).presented = s.presented := rfl
@[simp] theorem State.encoded_draws : (s.encoded b0 b1 b2 b3).draws = s.draws := rfl
@[simp] theorem State.encoded_host : (s.encoded b0 b1 b2 b3).host = s.host := rfl
end

/-- The character loop of one block writes the five characters of V, in order. -/
theorem emitChars_all (s : State) : emitChars (List.finRange 5) s =
    { s with i := 4, mem := s.mem.writeList (s.dstBase + 5 * s.k) ((digits s.v).map (a2c s.cfg.alphabet)) } := rfl

/-- One block of ENCODE whose bytes the host has filled. -/
theorem encodeBlock_spec {s : State} {b0 b1 b2 b3 : Byte} (h0 : s.srcByte (4 * s.k) = some b0)
    (h1 : s.srcByte (4 * s.k + 1) = some b1) (h2 : s.srcByte (4 * s.k + 2) = some b2)
    (h3 : s.srcByte (4 * s.k + 3) = some b3) : encodeBlock s = .next (s.encoded b0 b1 b2 b3) := by
  simp only [encodeBlock, h0, h1, h2, h3]
  rfl

/-- All that one block of ENCODE can do. -/
theorem encodeBlock_next {s t : State} (h : encodeBlock s = .next t) :
    ∃ b0 b1 b2 b3, s.srcByte (4 * s.k) = some b0 ∧ s.srcByte (4 * s.k + 1) = some b1 ∧
      s.srcByte (4 * s.k + 2) = some b2 ∧ s.srcByte (4 * s.k + 3) = some b3 ∧ t = s.encoded b0 b1 b2 b3 := by
  have h' := h
  unfold encodeBlock at h
  split at h
  · rename_i b0 b1 b2 b3 h0 h1 h2 h3
    rw [encodeBlock_spec h0 h1 h2 h3] at h'
    exact ⟨b0, b1, b2, b3, h0, h1, h2, h3, (Host.Outcome.next.inj h').symm⟩
  · cases h

/-- A run of ENCODE from block `k` on, over source bytes that no write of the run touches: the bytes left are turned into
text, block by block, and the run ends with N = ENCLEN(LEN). -/
theorem drive_encode (n : Nat) (s : State) (bs : List Byte) (hrun : s.activity = .running) (hk : s.k + n = s.len / 4)
    (hlen : bs.length = 4 * n) (hsrc : ∀ j, j < bs.length → s.srcByte (4 * s.k + j) = bs[j]?)
    (hdis : ∀ x y, x < 4 * n → y < 5 * n → s.srcBase + 4 * s.k + x ≠ s.dstBase + 5 * s.k + y) :
    drive encodeStep (n + 1) s = .next { s with
      v := 0, k := 0, i := 0, presented := State.reset.presented, activity := .idle,
      result := some (success (encLen s.len)),
      mem := s.mem.writeList (s.dstBase + 5 * s.k) (encodeBuffer s.cfg.alphabet bs) } := by
  induction n generalizing s bs with
  | zero =>
    have hb : bs = [] := List.eq_nil_of_length_eq_zero (by omega)
    subst hb
    have hstop : encodeStep s = .next (s.finish (success (encLen s.len))) := by
      rw [encodeStep, if_neg (by omega)]
    rw [drive_ends 0 hstop rfl]
    rfl
  | succ n ih =>
    match bs, hlen with
    | b0 :: b1 :: b2 :: b3 :: rest, hlen =>
      simp only [List.length_cons] at hlen hsrc
      have h0 : s.srcByte (4 * s.k) = some b0 := hsrc 0 (by omega)
      have h1 : s.srcByte (4 * s.k + 1) = some b1 := hsrc 1 (by omega)
      have h2 : s.srcByte (4 * s.k + 2) = some b2 := hsrc 2 (by omega)
      have h3 : s.srcByte (4 * s.k + 3) = some b3 := hsrc 3 (by omega)
      have hblock : encodeStep s = .next (s.encoded b0 b1 b2 b3) := by
        rw [encodeStep, if_pos (by omega), encodeBlock_spec h0 h1 h2 h3]
      have hrest := ih (s.encoded b0 b1 b2 b3) rest hrun (by simp; omega) (by omega)
        (fun j hj => by
          have hj' : s.srcByte (4 * s.k + (j + 4)) = rest[j]? := hsrc (j + 4) (by omega)
          rw [← hj', State.srcByte, State.srcByte, State.encoded_mem, State.encoded_srcBase, State.encoded_k,
            Memory.read_writeList_outside]
          · congr 1; omega
          · rw [encblk_length]
            rintro ⟨ha, hb⟩
            exact hdis (4 + j) (s.srcBase + 4 * s.k + (4 + j) - (s.dstBase + 5 * s.k)) (by omega) (by omega) (by omega))
        (fun x y hx hy => by
          have := hdis (4 + x) (5 + y) (by omega) (by omega)
          simp only [State.encoded_srcBase, State.encoded_dstBase, State.encoded_k]; omega)
      rw [drive_goes_on (n + 1) hblock hrun, hrest]
      simp only [State.encoded, encodeBuffer, Memory.writeList_append, encblk_length, Nat.mul_add, Nat.mul_one,
        Nat.add_assoc]

/-- All that a run of ENCODE from block `k` can do, wherever its buffers lie: it ends with N = ENCLEN(LEN), and five bytes per
block left have been written. -/
theorem drive_encode_next (n : Nat) {s t : State} (hrun : s.activity = .running) (hk : s.len / 4 - s.k = n)
    (h : drive encodeStep (n + 1) s = .next t) :
    ∃ out, out.length = 5 * n ∧ t = { s with
      v := 0, k := 0, i := 0, presented := State.reset.presented, activity := .idle,
      result := some (success (encLen s.len)),
      mem := s.mem.writeList (s.dstBase + 5 * s.k) out } := by
  induction n generalizing s with
  | zero =>
    have hstop : encodeStep s = .next (s.finish (success (encLen s.len))) := by rw [encodeStep, if_neg (by omega)]
    rw [drive_ends 0 hstop rfl] at h
    exact ⟨[], rfl, (Host.Outcome.next.inj h).symm⟩
  | succ n ih =>
    have hstep : encodeStep s = encodeBlock s := by rw [encodeStep, if_pos (by omega)]
    cases hb : encodeBlock s with
    | fault r => simp [drive, hstep, hb] at h
    | refused r => simp [drive, hstep, hb] at h
    | next u =>
      obtain ⟨b0, b1, b2, b3, -, -, -, -, rfl⟩ := encodeBlock_next hb
      rw [drive_goes_on (n + 1) (hstep.trans hb) hrun] at h
      obtain ⟨out, hout, rfl⟩ := ih (s := s.encoded b0 b1 b2 b3) hrun (by simp; omega) h
      refine ⟨encblk s.cfg.alphabet b0 b1 b2 b3 ++ out, by simp [encblk_length, hout]; omega, ?_⟩
      simp only [State.encoded, Memory.writeList_append, encblk_length, Nat.mul_add, Nat.mul_one, Nat.add_assoc]

/-- A run of ENCODE over a source with a byte that nobody filled has no next state. -/
theorem drive_encode_absent (n : Nat) (s : State) (j : Nat) (hrun : s.activity = .running) (hk : s.k + n = s.len / 4)
    (hj : j < 4 * n) (habs : s.srcByte (4 * s.k + j) = none)
    (hdis : ∀ x y, x < 4 * n → y < 5 * n → s.srcBase + 4 * s.k + x ≠ s.dstBase + 5 * s.k + y) :
    drive encodeStep (n + 1) s = .fault .sourceByteAbsent := by
  induction n generalizing s j with
  | zero => omega
  | succ n ih =>
    have hstep : encodeStep s = encodeBlock s := by rw [encodeStep, if_pos (by omega)]
    cases hb : encodeBlock s with
    | fault r => cases r; simp [drive, hstep, hb]
    | refused r =>
      unfold encodeBlock at hb
      split at hb <;> cases hb
    | next u =>
      obtain ⟨b0, b1, b2, b3, h0, h1, h2, h3, rfl⟩ := encodeBlock_next hb
      have h4 : 4 ≤ j := by
        by_contra hlt
        have : j = 0 ∨ j = 1 ∨ j = 2 ∨ j = 3 := by omega
        rcases this with rfl | rfl | rfl | rfl <;> simp_all
      rw [drive_goes_on (n + 1) (hstep.trans hb) hrun]
      refine ih (s.encoded b0 b1 b2 b3) (j - 4) hrun (by simp; omega) (by omega) ?_ ?_
      · rw [← habs, State.srcByte, State.srcByte, State.encoded_mem, State.encoded_srcBase, State.encoded_k,
          Memory.read_writeList_outside]
        · congr 1; omega
        · rw [encblk_length]
          rintro ⟨ha, hb⟩
          exact hdis j (s.srcBase + 4 * s.k + j - (s.dstBase + 5 * s.k)) (by omega) (by omega) (by omega)
      · intro x y hx hy
        have := hdis (4 + x) (5 + y) (by omega) (by omega)
        simp only [State.encoded_srcBase, State.encoded_dstBase, State.encoded_k]; omega

end Sys2Proof.Machine
end

