-- ==== Sys2Proof/Laws/Decoder.lean ====
section
/-! SUPPORT. What the character loop of DECBLK does, what one block of DECODE does, what a run of DECODE does. -/

namespace Sys2Proof.Machine

/-- A running DECODE after the characters `cs` of its block: they are all valid and gave V, or the first invalid one ended
the operation. -/
theorem decodeChars_spec (js : List (Fin 5)) (cs : List Byte) (more : List (Fin 5)) (s : State)
    (h : List.Forall₂ (fun j c => s.srcByte (5 * s.k + j.val) = some c) js cs) :
    match decAccumulate s.cfg.alphabet s.v cs with
    | .ok v => ∃ i, decodeChars (js ++ more) s = decodeChars more { s with v := v, i := i }
    | .error b => ∃ v i, decodeChars (js ++ more) s = .next ({ s with v := v, i := i }.raiseInvalid b) := by
  induction js generalizing cs s with
  | nil => cases h; exact ⟨s.i, rfl⟩
  | cons j js ih =>
    cases h with
    | cons hj hrest =>
      rename_i c cs
      cases hd : c2d s.cfg.alphabet c with
      | none => simpa only [decAccumulate, hd, List.cons_append, decodeChars, hj] using ⟨s.v, j, rfl⟩
      | some d =>
        have := ih cs { s with i := j, v := accStep s.v d } hrest
        simpa only [decAccumulate, hd, List.cons_append, decodeChars, hj] using this

/-- Everything the character loop can answer: it goes on with V and i changed, or Invalid Symbol has ended the operation. -/
theorem decodeChars_next {js : List (Fin 5)} {s t : State} (h : decodeChars js s = .next t) :
    (∃ v i, t = { s with v := v, i := i }) ∨
    (∃ v i b, c2d s.cfg.alphabet b = none ∧ t = { s with v := v, i := i }.raiseInvalid b) := by
  induction js generalizing s with
  | nil => exact .inl ⟨s.v, s.i, (Host.Outcome.next.inj h).symm⟩
  | cons j js ih =>
    unfold decodeChars at h
    split at h
    · cases h
    · split at h
      · rename_i hb
        exact .inr ⟨s.v, j, _, hb, (Host.Outcome.next.inj h).symm⟩
      · obtain ⟨v, i, rfl⟩ | ⟨v, i, b, hb, rfl⟩ := ih h
        · exact .inl ⟨v, i, rfl⟩
        · exact .inr ⟨v, i, b, hb, rfl⟩

/-- A running DECODE after a valid block of value `v`. -/
def State.decoded (s : State) (v : Value) (i : Fin 5) : State := { s with v := v, i := i }.emitValue

section
variable (s : State) (v : Value) (i : Fin 5)
@[simp] theorem State.decoded_cfg : (s.decoded v i).cfg = s.cfg := rfl
@[simp] theorem State.decoded_op : (s.decoded v i).op = s.op := rfl
@[simp] theorem State.decoded_len : (s.decoded v i).len = s.len := rfl
@[simp] theorem State.decoded_cap : (s.decoded v i).cap = s.cap := rfl
@[simp] theorem State.decoded_result : (s.decoded v i).result = s.result := rfl
@[simp] theorem State.decoded_v : (s.decoded v i).v = v := rfl
@[simp] theorem State.decoded_k : (s.decoded v i).k = s.k + 1 := rfl
@[simp] theorem State.decoded_i : (s.decoded v i).i = i := rfl
@[simp] theorem State.decoded_activity : (s.decoded v i).activity = s.activity := rfl
@[simp] theorem State.decoded_srcBase : (s.decoded v i).srcBase = s.srcBase := rfl
@[simp] theorem State.decoded_dstBase : (s.decoded v i).dstBase = s.dstBase := rfl
@[simp] theorem State.decoded_mem : (s.decoded v i).mem = s.mem.writeList (s.dstBase + 4 * s.k) (unpack v) := rfl
@[simp] theorem State.decoded_presented : (s.decoded v i).presented = s.presented := rfl
@[simp] theorem State.decoded_draws : (s.decoded v i).draws = s.draws := rfl
@[simp] theorem State.decoded_host : (s.decoded v i).host = s.host := rfl
end

theorem decodeBlock_goes_on {s u : State} (h : decodeChars (List.finRange 5) { s with v := 0 } = .next u)
    (hu : u.activity = .running) : decodeBlock s = .next u.emitValue := by
  rw [decodeBlock, h]; simp only [andThen, hu]

theorem decodeBlock_ends {s u : State} (h : decodeChars (List.finRange 5) { s with v := 0 } = .next u)
    (hu : u.activity = .idle) : decodeBlock s = .next u := by
  rw [decodeBlock, h]; simp only [andThen, hu]

/-- One block of DECODE whose five characters are filled and valid. -/
theorem decodeBlock_valid {s : State} {c0 c1 c2 c3 c4 : Byte} {v : Value} (hrun : s.activity = .running)
    (h0 : s.srcByte (5 * s.k) = some c0) (h1 : s.srcByte (5 * s.k + 1) = some c1)
    (h2 : s.srcByte (5 * s.k + 2) = some c2) (h3 : s.srcByte (5 * s.k + 3) = some c3)
    (h4 : s.srcByte (5 * s.k + 4) = some c4)
    (hv : decAccumulate s.cfg.alphabet 0 [c0, c1, c2, c3, c4] = .ok v) :
    ∃ i, decodeBlock s = .next (s.decoded v i) := by
  have h := decodeChars_spec [0, 1, 2, 3, 4] [c0, c1, c2, c3, c4] [] { s with v := 0 }
    (.cons h0 (.cons h1 (.cons h2 (.cons h3 (.cons h4 .nil)))))
  simp only [hv] at h
  obtain ⟨i, hi⟩ := h
  exact ⟨i, decodeBlock_goes_on hi hrun⟩

/-- One block of DECODE whose character of index `q` is the first invalid one. The characters after it need not be filled. -/
theorem decodeBlock_invalid {s : State} {b : Byte} (cs : List Byte) (hcs : cs.length ≤ 5)
    (hsrc : ∀ j, j < cs.length → s.srcByte (5 * s.k + j) = cs[j]?)
    (hb : decAccumulate s.cfg.alphabet 0 cs = .error b) :
    ∃ v i, decodeBlock s = .next ({ s with v := v, i := i }.raiseInvalid b) := by
  have hall : List.Forall₂ (fun (j : Fin 5) c => ({ s with v := 0 } : State).srcByte (5 * s.k + j.val) = some c)
      ((List.finRange 5).take cs.length) cs := by
    rw [List.forall₂_iff_get]
    refine ⟨by simpa using hcs, fun n h1 h2 => ?_⟩
    have := hsrc n h2
    simpa [State.srcByte, List.getElem?_eq_getElem h2] using this
  have h := decodeChars_spec _ cs ((List.finRange 5).drop cs.length) { s with v := 0 } hall
  simp only [hb, List.take_append_drop] at h
  obtain ⟨v, i, hi⟩ := h
  exact ⟨v, i, decodeBlock_ends hi rfl⟩

/-- All that one block of DECODE can do: the block was valid, or Invalid Symbol has ended the operation. -/
theorem decodeBlock_next {s t : State} (hrun : s.activity = .running) (h : decodeBlock s = .next t) :
    (∃ v i, t = s.decoded v i) ∨
    (∃ v i b, c2d s.cfg.alphabet b = none ∧ t = { s with v := v, i := i }.raiseInvalid b) := by
  cases hc : decodeChars (List.finRange 5) { s with v := 0 } with
  | fault r => rw [decodeBlock, hc] at h; cases h
  | refused r => rw [decodeBlock, hc] at h; cases h
  | next u =>
    obtain ⟨v, i, rfl⟩ | ⟨v, i, b, hb, rfl⟩ := decodeChars_next hc
    · rw [decodeBlock_goes_on hc hrun] at h
      exact .inl ⟨v, i, (Host.Outcome.next.inj h).symm⟩
    · rw [decodeBlock_ends hc rfl] at h
      exact .inr ⟨v, i, b, hb, (Host.Outcome.next.inj h).symm⟩

theorem decodeBuffer_ok_length (al : Alphabet) (n : Nat) (cs bs : List Byte) (hlen : cs.length = 5 * n)
    (h : decodeBuffer al cs = .ok bs) : bs.length = 4 * n := by
  induction n generalizing cs bs with
  | zero =>
    rw [List.eq_nil_of_length_eq_zero (by omega : cs.length = 0)] at h
    cases h; rfl
  | succ n ih =>
    match cs, hlen with
    | c0 :: c1 :: c2 :: c3 :: c4 :: rest, hlen =>
      simp only [List.length_cons] at hlen
      unfold decodeBuffer decblk at h
      split at h <;> rename_i x hx
      · cases h
      · split at h <;> rename_i y hy
        · cases h
        · cases h
          split at hx <;> cases hx
          simp only [List.length_append, unpack_length, ih rest y (by omega) hy]
          omega

/-- A run of DECODE from block `k` over `m` valid blocks, none of whose source bytes the run writes: it stands at block
`k + m`, with their bytes written. -/
theorem drive_decode_valid (m extra : Nat) (s : State) (cs bs : List Byte) (hrun : s.activity = .running)
    (hk : s.k + m ≤ s.len / 5) (hlen : cs.length = 5 * m)
    (hsrc : ∀ j, j < cs.length → s.srcByte (5 * s.k + j) = cs[j]?)
    (hdis : ∀ x y, x < 5 * m → y < 4 * m → s.srcBase + 5 * s.k + x ≠ s.dstBase + 4 * s.k + y)
    (hbs : decodeBuffer s.cfg.alphabet cs = .ok bs) :
    ∃ v i, drive decodeStep (m + extra) s = drive decodeStep extra { s with
      v := v, i := i, k := s.k + m, mem := s.mem.writeList (s.dstBase + 4 * s.k) bs } := by
  induction m generalizing s cs bs with
  | zero =>
    rw [List.eq_nil_of_length_eq_zero (by omega : cs.length = 0)] at hbs
    cases hbs
    exact ⟨s.v, s.i, by rw [Nat.zero_add]; rfl⟩
  | succ m ih =>
    match cs, hlen with
    | c0 :: c1 :: c2 :: c3 :: c4 :: rest, hlen =>
      simp only [List.length_cons] at hlen hsrc
      have h0 : s.srcByte (5 * s.k) = some c0 := hsrc 0 (by omega)
      have h1 : s.srcByte (5 * s.k + 1) = some c1 := hsrc 1 (by omega)
      have h2 : s.srcByte (5 * s.k + 2) = some c2 := hsrc 2 (by omega)
      have h3 : s.srcByte (5 * s.k + 3) = some c3 := hsrc 3 (by omega)
      have h4 : s.srcByte (5 * s.k + 4) = some c4 := hsrc 4 (by omega)
      unfold decodeBuffer decblk at hbs
      split at hbs <;> rename_i x hx
      · cases hbs
      split at hbs <;> rename_i y hy
      · cases hbs
      cases hbs
      split at hx <;> rename_i v hv
      swap
      · cases hx
      cases hx
      obtain ⟨i, hi⟩ := decodeBlock_valid hrun h0 h1 h2 h3 h4 hv
      have hblock : decodeStep s = .next (s.decoded v i) := by rw [decodeStep, if_pos (by omega), hi]
      obtain ⟨v', i', hrest⟩ := ih (s.decoded v i) rest y hrun (by simp; omega) (by omega)
        (fun j hj => by
          have hj' : s.srcByte (5 * s.k + (j + 5)) = rest[j]? := hsrc (j + 5) (by omega)
          rw [← hj', State.srcByte, State.srcByte, State.decoded_mem, State.decoded_srcBase, State.decoded_k,
            Memory.read_writeList_outside]
          · congr 1; omega
          · rw [unpack_length]
            rintro ⟨ha, hb⟩
            exact hdis (5 + j) (s.srcBase + 5 * s.k + (5 + j) - (s.dstBase + 4 * s.k)) (by omega) (by omega) (by omega))
        (fun x z hx hz => by
          have := hdis (5 + x) (4 + z) (by omega) (by omega)
          simp only [State.decoded_srcBase, State.decoded_dstBase, State.decoded_k]; omega)
        hy
      refine ⟨v', i', ?_⟩
      rw [show m + 1 + extra = m + extra + 1 by omega, drive_goes_on (m + extra) hblock hrun, hrest]
      simp only [State.decoded, State.emitValue, State.dstWrite, Memory.writeList_append, unpack_length, Nat.mul_add,
        Nat.mul_one, Nat.add_assoc, Nat.add_comm 1 m]

/-- Over valid characters the loop of DECBLK has a value. -/
theorem decAccumulate_valid {al : Alphabet} {cs : List Byte} (v : Value) (h : ∀ c ∈ cs, (c2d al c).isSome = true) :
    ∃ w, decAccumulate al v cs = .ok w := by
  induction cs generalizing v with
  | nil => exact ⟨v, rfl⟩
  | cons c cs ih =>
    obtain ⟨d, hd⟩ := Option.isSome_iff_exists.1 (h c List.mem_cons_self)
    obtain ⟨w, hw⟩ := ih (accStep v d) fun x hx => h x (List.mem_cons_of_mem _ hx)
    exact ⟨w, by simp only [decAccumulate, hd, hw]⟩

/-- Valid characters followed by an invalid one: the loop of DECBLK answers that one. -/
theorem decAccumulate_invalid {al : Alphabet} {cs : List Byte} {b : Byte} (v : Value)
    (h : ∀ c ∈ cs, (c2d al c).isSome = true) (hb : c2d al b = none) : decAccumulate al v (cs ++ [b]) = .error b := by
  induction cs generalizing v with
  | nil => simp only [List.nil_append, decAccumulate, hb]
  | cons c cs ih =>
    obtain ⟨d, hd⟩ := Option.isSome_iff_exists.1 (h c List.mem_cons_self)
    simp only [List.cons_append, decAccumulate, hd]
    exact ih (accStep v d) fun x hx => h x (List.mem_cons_of_mem _ hx)

/-- A text of whole blocks of valid characters decodes. -/
theorem decodeBuffer_valid {al : Alphabet} (n : Nat) {cs : List Byte} (hlen : cs.length = 5 * n)
    (h : ∀ c ∈ cs, (c2d al c).isSome = true) : ∃ bs, decodeBuffer al cs = .ok bs := by
  induction n generalizing cs with
  | zero => rw [List.eq_nil_of_length_eq_zero (by omega : cs.length = 0)]; exact ⟨[], rfl⟩
  | succ n ih =>
    match cs, hlen with
    | c0 :: c1 :: c2 :: c3 :: c4 :: rest, hlen =>
      obtain ⟨w, hw⟩ := decAccumulate_valid (al := al) (cs := [c0, c1, c2, c3, c4]) 0
        fun c hc => h c (by simp only [List.mem_cons] at hc ⊢; tauto)
      simp only [List.length_cons] at hlen
      obtain ⟨bs, hbs⟩ := ih (cs := rest) (by omega) fun c hc => h c (by simp [hc])
      exact ⟨unpack w ++ bs, by simp only [decodeBuffer, decblk, hw, hbs]⟩

/-- A run of DECODE over `m` valid blocks and `q` valid characters of the next, then an invalid one. -/
theorem drive_decode_invalid (m extra : Nat) (s : State) (cs tail : List Byte) (b : Byte) (hrun : s.activity = .running)
    (hk : s.k + m < s.len / 5) (hlen : cs.length = 5 * m) (htail : tail.length < 5)
    (hsrc : ∀ j, j < cs.length → s.srcByte (5 * s.k + j) = cs[j]?)
    (hsrc' : ∀ j, j < tail.length + 1 → s.srcByte (5 * s.k + 5 * m + j) = (tail ++ [b])[j]?)
    (hvalid : ∀ c ∈ cs ++ tail, (c2d s.cfg.alphabet c).isSome = true) (hb : c2d s.cfg.alphabet b = none)
    (hdis : ∀ x y, x < 5 * m + tail.length + 1 → y < 4 * m → s.srcBase + 5 * s.k + x ≠ s.dstBase + 4 * s.k + y) :
    ∃ v i out, out.length = 4 * m ∧ drive decodeStep (m + (extra + 1)) s = .next ({ s with
      v := v, i := i, k := s.k + m, mem := s.mem.writeList (s.dstBase + 4 * s.k) out }.raiseInvalid b) := by
  obtain ⟨bs, hbs⟩ := decodeBuffer_valid m hlen fun c hc => hvalid c (List.mem_append_left _ hc)
  have hout := decodeBuffer_ok_length _ m cs bs hlen hbs
  obtain ⟨v, i, hd⟩ := drive_decode_valid m (extra + 1) s cs bs hrun (by omega) hlen hsrc
    (fun x y hx hy => hdis x y (by omega) hy) hbs
  obtain ⟨v', i', hblock⟩ := decodeBlock_invalid
    (s := { s with v := v, i := i, k := s.k + m, mem := s.mem.writeList (s.dstBase + 4 * s.k) bs }) (b := b) (tail ++ [b])
    (by simp; omega)
    (fun j hj => by
      have hj' : j < tail.length + 1 := by simpa using hj
      rw [← hsrc' j hj', State.srcByte, State.srcByte, Memory.read_writeList_outside]
      · simp only [Nat.mul_add]
      · rintro ⟨h1, h2⟩
        simp only [hout, Nat.mul_add] at h1 h2
        exact hdis (5 * m + j) (s.srcBase + 5 * s.k + (5 * m + j) - (s.dstBase + 4 * s.k)) (by omega) (by omega)
          (by omega))
    (decAccumulate_invalid 0 (fun c hc => hvalid c (List.mem_append_right _ hc)) hb)
  refine ⟨v', i', bs, hout, ?_⟩
  rw [hd, drive_ends extra (by rw [decodeStep, if_pos (by simp only; omega)]; exact hblock) rfl]

theorem decodeChars_absent {j : Fin 5} {more : List (Fin 5)} {s : State}
    (h : s.srcByte (5 * s.k + j.val) = none) : decodeChars (j :: more) s = .fault .sourceByteAbsent := by
  simp only [decodeChars, h]

/-- A character that nobody filled, before any invalid one: the block has no next state. -/
theorem decodeBlock_absent {s : State} (cs : List Byte) (hcs : cs.length < 5)
    (hsrc : ∀ j, j < cs.length → s.srcByte (5 * s.k + j) = cs[j]?)
    (hvalid : ∀ c ∈ cs, (c2d s.cfg.alphabet c).isSome = true) (habs : s.srcByte (5 * s.k + cs.length) = none) :
    decodeBlock s = .fault .sourceByteAbsent := by
  have hall : List.Forall₂ (fun (j : Fin 5) c => ({ s with v := 0 } : State).srcByte (5 * s.k + j.val) = some c)
      ((List.finRange 5).take cs.length) cs := by
    rw [List.forall₂_iff_get]
    refine ⟨by simp; omega, fun n h1 h2 => ?_⟩
    have := hsrc n h2
    simpa [State.srcByte, List.getElem?_eq_getElem h2] using this
  have h := decodeChars_spec _ cs ((List.finRange 5).drop cs.length) { s with v := 0 } hall
  obtain ⟨w, hw⟩ := decAccumulate_valid (al := s.cfg.alphabet) 0 hvalid
  simp only [hw, List.take_append_drop] at h
  obtain ⟨i, hi⟩ := h
  rw [List.drop_eq_getElem_cons (by simpa using hcs), decodeChars_absent] at hi
  · rw [decodeBlock, hi]; rfl
  · rw [List.getElem_finRange]; exact habs

/-- A run of DECODE over `m` valid blocks and some valid characters of the next, then one that nobody filled. -/
theorem drive_decode_absent (m extra : Nat) (s : State) (cs tail : List Byte) (hrun : s.activity = .running)
    (hk : s.k + m < s.len / 5) (hlen : cs.length = 5 * m) (htail : tail.length < 5)
    (hsrc : ∀ j, j < cs.length → s.srcByte (5 * s.k + j) = cs[j]?)
    (hsrc' : ∀ j, j < tail.length → s.srcByte (5 * s.k + 5 * m + j) = tail[j]?)
    (habs : s.srcByte (5 * s.k + 5 * m + tail.length) = none)
    (hvalid : ∀ c ∈ cs ++ tail, (c2d s.cfg.alphabet c).isSome = true)
    (hdis : ∀ x y, x < 5 * m + tail.length + 1 → y < 4 * m → s.srcBase + 5 * s.k + x ≠ s.dstBase + 4 * s.k + y) :
    drive decodeStep (m + (extra + 1)) s = .fault .sourceByteAbsent := by
  obtain ⟨bs, hbs⟩ := decodeBuffer_valid m hlen fun c hc => hvalid c (List.mem_append_left _ hc)
  have hout := decodeBuffer_ok_length _ m cs bs hlen hbs
  obtain ⟨v, i, hd⟩ := drive_decode_valid m (extra + 1) s cs bs hrun (by omega) hlen hsrc
    (fun x y hx hy => hdis x y (by omega) hy) hbs
  have hread : ∀ j, j < tail.length + 1 →
      ({ s with v := v, i := i, k := s.k + m, mem := s.mem.writeList (s.dstBase + 4 * s.k) bs } : State).srcByte
        (5 * (s.k + m) + j) = s.srcByte (5 * s.k + 5 * m + j) := by
    intro j hj
    rw [State.srcByte, State.srcByte, Memory.read_writeList_outside]
    · simp only [Nat.mul_add]
    · rintro ⟨h1, h2⟩
      simp only [hout, Nat.mul_add] at h1 h2
      exact hdis (5 * m + j) (s.srcBase + 5 * s.k + (5 * m + j) - (s.dstBase + 4 * s.k)) (by omega) (by omega) (by omega)
  have hblock := decodeBlock_absent
    (s := { s with v := v, i := i, k := s.k + m, mem := s.mem.writeList (s.dstBase + 4 * s.k) bs }) tail htail
    (fun j hj => (hread j (by omega)).trans (hsrc' j hj)) (fun c hc => hvalid c (List.mem_append_right _ hc))
    ((hread _ (by omega)).trans habs)
  rw [hd, drive, decodeStep, if_pos (by simp only; omega), hblock]

/-- All that a run of DECODE from block `k` can do, wherever its buffers lie: it ends with N = DECLEN(LEN) and four bytes per
block left have been written, or Invalid Symbol ends it at a block in between. -/
theorem drive_decode_next (n : Nat) {s t : State} (hrun : s.activity = .running) (hk : s.len / 5 - s.k = n)
    (h : drive decodeStep (n + 1) s = .next t) :
    (∃ out, out.length = 4 * n ∧ t = { s with
      v := 0, k := 0, i := 0, presented := State.reset.presented, activity := .idle,
      result := some (success (decLen s.len)),
      mem := s.mem.writeList (s.dstBase + 4 * s.k) out }) ∨
    (∃ m v i b out, m < n ∧ out.length = 4 * m ∧ c2d s.cfg.alphabet b = none ∧ t = { s with
      v := v, i := i, k := s.k + m, mem := s.mem.writeList (s.dstBase + 4 * s.k) out }.raiseInvalid b) := by
  induction n generalizing s with
  | zero =>
    have hstop : decodeStep s = .next (s.finish (success (decLen s.len))) := by rw [decodeStep, if_neg (by omega)]
    rw [drive_ends 0 hstop rfl] at h
    exact .inl ⟨[], rfl, (Host.Outcome.next.inj h).symm⟩
  | succ n ih =>
    have hstep : decodeStep s = decodeBlock s := by rw [decodeStep, if_pos (by omega)]
    cases hb : decodeBlock s with
    | fault r => simp [drive, hstep, hb] at h
    | refused r => simp [drive, hstep, hb] at h
    | next u =>
      obtain ⟨v, i, rfl⟩ | ⟨v, i, b, hn, rfl⟩ := decodeBlock_next hrun hb
      · rw [drive_goes_on (n + 1) (hstep.trans hb) hrun] at h
        obtain ⟨out, hout, rfl⟩ | ⟨m, v', i', b, out, hm, hout, hn, rfl⟩ :=
          ih (s := s.decoded v i) hrun (by simp; omega) h
        · refine .inl ⟨unpack v ++ out, by simp [unpack_length, hout]; omega, ?_⟩
          simp only [State.decoded, State.emitValue, State.dstWrite, Memory.writeList_append, unpack_length, Nat.mul_add,
            Nat.mul_one, Nat.add_assoc]
        · refine .inr ⟨m + 1, v', i', b, unpack v ++ out, by omega, by simp [unpack_length, hout]; omega, hn, ?_⟩
          simp only [State.decoded, State.emitValue, State.dstWrite, Memory.writeList_append, unpack_length, Nat.mul_add,
            Nat.mul_one, Nat.add_assoc, Nat.add_comm 1 m]
      · rw [drive_ends (n + 1) (hstep.trans hb) rfl] at h
        refine .inr ⟨0, v, i, b, [], by omega, rfl, hn, ?_⟩
        exact (Host.Outcome.next.inj h).symm

end Sys2Proof.Machine
end

