-- ==== Sys2Proof/Laws/HostMoves.lean ====
section
/-! SUPPORT. What the host's duties mean, and all that starting an operation can do. -/

namespace Sys2Proof.Machine

theorem covers_iff (s : State) (i : Instr) : s.presented.covers (operandsOf i) = true ↔ s.PresentedFor i := by
  cases i <;> simp [Presented.covers, operandsOf, State.PresentedFor, and_assoc]

theorem sourceDone_iff (s : State) (i : Instr) :
    s.sourceDone i = true ↔ (i = .encode ∨ i = .decode → s.Filled) := by
  cases i <;> simp [State.sourceDone, filledTo_iff, State.Filled]

/-- With the host's duties done, a start is the operation. -/
theorem startOp_of_duties {s : State} {i : Instr} (h : s.DutiesDone i) : s.startOp i = exec i s := by
  simp [State.startOp, (covers_iff s i).2 h.1, (sourceDone_iff s i).2 h.2]

/-- All that a start can do: it is refused for a duty, or the duties are done and it is the operation. -/
theorem startOp_cases (s : State) (i : Instr) :
    (¬ s.PresentedFor i ∧ s.startOp i = .refused .operandNotPresented) ∨
    (s.PresentedFor i ∧ (i = .encode ∨ i = .decode) ∧ ¬ s.Filled ∧ s.startOp i = .refused .sourceNotFilled) ∨
    (s.DutiesDone i ∧ s.startOp i = exec i s) := by
  by_cases hp : s.PresentedFor i
  · by_cases hf : i = .encode ∨ i = .decode → s.Filled
    · exact .inr (.inr ⟨⟨hp, hf⟩, startOp_of_duties ⟨hp, hf⟩⟩)
    · obtain ⟨hi, hn⟩ := Classical.not_imp.1 hf
      exact .inr (.inl ⟨hp, hi, hn, by simp [State.startOp, (covers_iff s i).2 hp, mt (sourceDone_iff s i).1 hf]⟩)
  · exact .inl ⟨hp, by simp [State.startOp, mt (covers_iff s i).1 hp]⟩

end Sys2Proof.Machine
end

