-- ==== Sys2Proof/Laws/PerInstr.lean ====
section
/-! SUPPORT. The statement made once per operation: how it stands in a command (spec/30_encoding.md R54, R56, R57). -/

namespace Sys2Proof.Laws

/-- The operation is well-formed; its command is one byte, the operation code in bits 1:0 and zeros above; the decoder reads
it back and takes nothing else. One byte a command is log 13. -/
def OpByte.Statement (i : Instr) : Prop :=
  i.wf = true ∧ (∃ b : Byte, encode i = [b] ∧ b.toNat = (opCode i).toNat ∧ b.toNat < 4) ∧
  (∀ rest, decode (encode i ++ rest) = .ok (i, rest)) ∧ decodeTableWord 2 (opCode i).toNat = some i

theorem OpByte.enclen : OpByte.Statement .enclen :=
  ⟨rfl, ⟨0, rfl, rfl, by decide⟩, fun _ => rfl, rfl⟩

theorem OpByte.declen : OpByte.Statement .declen :=
  ⟨rfl, ⟨1, rfl, rfl, by decide⟩, fun _ => rfl, rfl⟩

theorem OpByte.encode : OpByte.Statement .encode :=
  ⟨rfl, ⟨2, rfl, rfl, by decide⟩, fun _ => rfl, rfl⟩

theorem OpByte.decode : OpByte.Statement .decode :=
  ⟨rfl, ⟨3, rfl, rfl, by decide⟩, fun _ => rfl, rfl⟩

end Sys2Proof.Laws
end

