-- ==== Sys2Proof/Tests/Slice0.lean ====
section
/-! SUPPORT. Tests of the model, their expected values taken from spec/95_test_vectors.md and spec/30_encoding.md, and a witness
for the hypotheses of each statement of Certificates/Slice0/Obligations.lean. -/

namespace Sys2Proof.Tests

open Sys2Proof Sys2Proof.Machine

-- One check after the other: many kernel evaluations at once ask for more threads than the sandbox gives.
set_option Elab.async false

/-- The outcome is a next state of which `P` holds. -/
def endsWith (o : Out) (P : State → Bool) : Bool :=
  match o with
  | .next t => P t
  | .fault _ => false
  | .refused _ => false

theorem answers {o : Out} {P : State → Prop} [DecidablePred P] (h : endsWith o (fun t => decide (P t)) = true) :
    ∃ t, o = .next t ∧ P t := by
  cases o with
  | next t => exact ⟨t, rfl, of_decide_eq_true h⟩
  | fault r => cases h
  | refused r => cases h

/-- The host has presented the operation with this OP, SRC at address 0 and DST, `cap` bytes at address 100, all of them EE. -/
def given (op : BitVec 2) (src : List Byte) (cap : Nat) : State :=
  { State.reset with
    op := op, len := src.length, cap := cap, dstBase := 100, presented := operandsOf .encode,
    mem := Memory.writeList (Memory.writeList [] 0 src) 100 (List.replicate cap 0xEE) }

/-- The operands LEN and LEN_W alone. -/
def sized (lenW : Option Nat) (n : Nat) : State := { State.reset with cfg := ⟨lenW, defaultAlphabet⟩, len := n }

/-- N, ERR, EBYTE are these, and DST holds these bytes from index `from` on. -/
def gives (n : Nat) (err : BitVec 2) (ebyte : Option Byte) (from' : Nat) (dst : List Byte) (t : State) : Bool :=
  t.regN == some n && t.regErr == some err && t.regEbyte == ebyte && t.activity == .idle &&
  (List.range dst.length).all fun j => t.dstByte (from' + j) == dst[j]?

/-- Source vector V1, the binary side. -/
def v1Bytes : List Byte := [0x86, 0x4F, 0xD2, 0x6F, 0xB5, 0x59, 0xF7, 0x5B]

/-- Source vector V1, the text side, HelloWorld. -/
def v1Text : List Byte := [0x48, 0x65, 0x6C, 0x6C, 0x6F, 0x57, 0x6F, 0x72, 0x6C, 0x64]

/-- Section 2.6, the text with a space at index 5. -/
def spaceText : List Byte := [0x48, 0x65, 0x6C, 0x6C, 0x6F, 0x20, 0x6F, 0x72, 0x6C, 0x64]

/-! ## WellFormed refuses what it should (spec/30_encoding.md R49) -/

/-- Entry 1 made equal to entry 0. -/
theorem smoke_distinct : Alphabet.distinct (defaultAlphabet.set 1 48) = false := by decide +kernel
/-- Entry 43, pinned to H, made a quote. -/
theorem smoke_keepsPinned : Alphabet.keepsPinned (defaultAlphabet.set 43 39) = false := by decide +kernel
/-- Entry 84 made code 126, one above the span, and code 32, one below. -/
theorem smoke_inSpan : Alphabet.inSpan (defaultAlphabet.set 84 126) = false ∧
    Alphabet.inSpan (defaultAlphabet.set 84 32) = false := by decide +kernel
theorem smoke_skipsQuote : Alphabet.skipsQuote (defaultAlphabet.set 84 34) = false := by decide +kernel
/-- No alphabet is ill-formed by condition (e) alone: 85 entries cannot fill 93 codes. -/
theorem smoke_hasGap : ∀ al : Alphabet, al.hasGap = true := Alphabet.hasGap_always
/-- The alphabet hypothesis of all statements over `al.wf`: ReverseLookupIsDerivedFromTheAlphabet, EightyFiveBytesAreValid,
BlockRoundTrip, AlphabetCheckIsTheFiveConditions (its other side: smoke_alphabet). -/
theorem witness_alphabet : Alphabet.wf defaultAlphabet = true := by decide +kernel
theorem smoke_alphabet : Alphabet.wf (defaultAlphabet.set 84 34) = false := by
  rw [Alphabet.wf, smoke_skipsQuote, Bool.and_false, Bool.false_and]
theorem smoke_config : Config.wf ⟨some 0, defaultAlphabet⟩ = false ∧ Config.wf ⟨some 1, defaultAlphabet⟩ = true ∧
    Config.wf ⟨none, defaultAlphabet.set 84 34⟩ = false := by
  simp only [Config.wf, smoke_alphabet, witness_alphabet]
  decide
/-- LEN and CAP of 3 bits hold 7 and not 8 (R17). -/
theorem smoke_hostMove : HostMove.wf ⟨some 3, defaultAlphabet⟩ (.setLen 8) = false ∧
    HostMove.wf ⟨some 3, defaultAlphabet⟩ (.setLen 7) = true ∧
    HostMove.wf ⟨some 3, defaultAlphabet⟩ (.setCap 8) = false := by decide

/-! ## Decoding (the OP column of spec/30_encoding.md R56) -/

theorem test_decode_enclen : decode [0b00000000] = .ok (.enclen, []) := by decide
theorem test_decode_declen : decode [0b00000001] = .ok (.declen, []) := by decide
theorem test_decode_encode : decode [0b00000010] = .ok (.encode, []) := by decide
theorem test_decode_decode : decode [0b00000011, 0b00000000] = .ok (.decode, [0]) := by decide
theorem test_decode_refuses : decode [0b00000111] = .error (.notAnOpCode 7) ∧ decode [] = .error .truncated := by decide
theorem test_tableWords : decodeTableWord 2 0 = some .enclen ∧ decodeTableWord 2 1 = some .declen ∧
    decodeTableWord 2 2 = some .encode ∧ decodeTableWord 2 3 = some .decode ∧ decodeTableWord 8 4 = none := by decide

/-! ## Look-ups and operand assembly (sections 2.1, 2.3) -/

theorem test_a2c : [0, 9, 10, 35, 36, 43, 61, 62, 68, 80, 82, 84].map (a2c defaultAlphabet) =
    [0x30, 0x39, 0x61, 0x7A, 0x41, 0x48, 0x5A, 0x2E, 0x21, 0x7D, 0x25, 0x23] := by decide +kernel
theorem test_c2d_invalid :
    ([0x00, 0x20, 0x22, 0x27, 0x2C, 0x3B, 0x5C, 0x5F, 0x60, 0x7C, 0x7E, 0x7F, 0x80, 0xFF].map
      (c2d defaultAlphabet)).all Option.isNone = true := by decide +kernel
theorem test_pack : (pack 1 2 3 4).toNat = 16909060 ∧ (pack 0xFF 0 0 0).toNat = 4278190080 ∧ (pack 0 0 0 0xFF).toNat = 255 :=
  by decide +kernel
theorem test_unpack : unpack 0xDEADBEEF = [0xDE, 0xAD, 0xBE, 0xEF] ∧ unpack 0x53 = [0, 0, 0, 0x53] := by decide +kernel
theorem test_digits : digits 7224 = [0, 0, 0, 84, 84] ∧ digits 52200625 = [1, 0, 0, 0, 0] ∧
    digits 4294967295 = [82, 23, 54, 12, 0] := by decide +kernel
theorem test_acc : acc [82, 23, 54, 12, 0] = 4294967295 ∧ acc [82, 23, 54, 12, 1] = 0 ∧
    acc [84, 84, 84, 84, 84] = 142085828 := by decide +kernel

/-! ## One step of each operation (sections 1.1, 2.2, 2.4 to 2.8), started through the codec's OP register -/

/-- ENCLEN 4294967295. -/
theorem test_enclen : endsWith (step ((sized none 4294967295).withFetchWord 2 0)) (gives 5368709115 0 none 0 []) = true := by
  decide +kernel
/-- Section 2.8: the same with LEN_W = 32 is refused. -/
theorem test_enclen_refused : (match step ((sized (some 32) 4294967295).withFetchWord 2 0) with
    | .refused r => r == .lengthDoesNotFit
    | .next _ => false
    | .fault _ => false) = true := by decide +kernel
/-- R128: from reset the host has set nothing and given nothing, so a start is refused. -/
theorem test_start_from_reset : (match step { State.reset with host := [.start] } with
    | .refused r => r == .operandNotPresented
    | .next _ => false
    | .fault _ => false) = true := by decide +kernel
/-- DECLEN 9. -/
theorem test_declen : endsWith (step ((sized none 9).withFetchWord 2 1)) (gives 4 0 none 0 []) = true := by decide +kernel
/-- Source vector V1, with two bytes of capacity to spare, which stay as they were (R78). -/
theorem test_encode : endsWith (step ((given 0 v1Bytes 12).withFetchWord 2 2))
    (gives 10 0 none 0 (v1Text ++ [0xEE, 0xEE])) = true := by decide +kernel
/-- Section 2.6: five bytes, LENGTH, the whole first block is not encoded. -/
theorem test_encode_length : endsWith (step ((given 0 [0x86, 0x4F, 0xD2, 0x6F, 0xB5] 10).withFetchWord 2 2))
    (gives 0 1 none 0 [0xEE, 0xEE, 0xEE, 0xEE, 0xEE]) = true := by decide +kernel
/-- Section 2.7: the greatest overflow block wraps. -/
theorem test_decode_wraps : endsWith (step ((given 0 [0x23, 0x23, 0x23, 0x23, 0x23] 4).withFetchWord 2 3))
    (gives 4 0 none 0 [0x08, 0x78, 0x0E, 0xC4]) = true := by decide +kernel
/-- Section 2.6: the space at index 5, block 1; DST from index 4 on stays as it was. -/
theorem test_decode_invalid : endsWith (step ((given 0 spaceText 8).withFetchWord 2 3))
    (gives 0 2 (some 0x20) 4 [0xEE, 0xEE, 0xEE, 0xEE]) = true := by decide +kernel

/-! ## Witnesses: the hypotheses of every statement can be met, at the edges of their ranges -/

/-- An instance in the middle of ENCODE of V1: block 0 is done. -/
def midEncode : State := { given 2 v1Bytes 10 with activity := .running, k := 1 }

/-- An instance in the middle of DECODE of V1. -/
def midDecode (text : List Byte) : State := { given 3 text 8 with activity := .running, k := 1 }

theorem witness_CommandDecodeAndEncodeAgree : decode [2, 9] = .ok (.encode, [9]) := by decide

theorem witness_StepRunsTheOperationThatOpNames :
    let s : State := { given 3 v1Text 8 with host := [.start, .reset] }
    let u : State := { sized none 3 with presented := operandsOf .enclen, host := [.start] }
    (s.activity = .idle ∧ s.host = .start :: [.reset] ∧ decode [opByte s.op] = .ok (.decode, []) ∧
      Instr.wf .decode = true ∧ s.DutiesDone .decode) ∧
    u.activity = .idle ∧ u.host = .start :: [] ∧ decode [opByte u.op] = .ok (.enclen, []) ∧ u.DutiesDone .enclen := by
  decide +kernel

theorem witness_IdleInstanceWaitsForTheHost : State.reset.activity = .idle ∧ State.reset.host = [] := by decide

/-- Both sides of the LEN_W limit, for the two moves that have one. -/
theorem witness_HostMovesSetWhatTheyName :
    let s (m : HostMove) : State := { sized (some 3) 0 with host := [m] }
    (∀ m, (s m).activity = .idle ∧ (s m).host = m :: []) ∧ (s (.setLen 7)).cfg.fits 7 = true ∧
      (s (.setLen 8)).cfg.fits 8 = false ∧ State.DutiesDone { given 2 v1Bytes 10 with host := [.start] } .encode :=
  ⟨fun _ => ⟨rfl, rfl⟩, by decide, by decide, by decide +kernel⟩

theorem witness_BusyInstanceRefusesAStart : midEncode.activity = .running := by decide

theorem witness_RunningOperationTakesNoHostMove :
    midEncode.activity = .running ∧ midEncode.InProgress ∧ (∃ t, step midEncode = .next t ∧ t.regN = some 10) ∧
    (midDecode v1Text).InProgress ∧ (∃ t, step (midDecode v1Text) = .next t ∧ t.regN = some 8) ∧
    (midDecode spaceText).InProgress ∧ ∃ t, step (midDecode spaceText) = .next t ∧ t.regEbyte = some 0x20 := by
  refine ⟨rfl, ?_, answers (by decide +kernel), ?_, answers (by decide +kernel), ?_, answers (by decide +kernel)⟩
  · show midEncode.len % 4 = 0 ∧ encLen midEncode.len ≤ midEncode.cap ∧ midEncode.k ≤ midEncode.len / 4
    decide
  · show 10 % 5 = 0 ∧ decLen 10 ≤ 8 ∧ 1 ≤ 10 / 5
    decide
  · show 10 % 5 = 0 ∧ decLen 10 ≤ 8 ∧ 1 ≤ 10 / 5
    decide

theorem witness_ResetKeepsTablesAndHostMemory :
    let s : State := { given 2 v1Bytes 10 with host := .reset :: [.start] }
    s.activity = .idle ∧ s.host = .reset :: [.start] := by decide

/-- The edges of the span: 33 and 125 inside, 32 and 126 outside. -/
theorem witness_ReverseTableOfTheDefaultAlphabet :
    (33 ≤ (33 : Byte).toNat ∧ (33 : Byte).toNat ≤ 125) ∧ (33 ≤ (125 : Byte).toNat ∧ (125 : Byte).toNat ≤ 125) ∧
    ¬ (33 ≤ (32 : Byte).toNat ∧ (32 : Byte).toNat ≤ 125) ∧ ¬ (33 ≤ (126 : Byte).toNat ∧ (126 : Byte).toNat ≤ 125) := by
  decide

theorem witness_DigitToCharacterLookup :
    Alphabet.wf defaultAlphabet = true ∧ a2c defaultAlphabet 84 = a2c defaultAlphabet 84 := ⟨witness_alphabet, rfl⟩

/-- One byte under each clause: 32 and 126 outside the span, 34 a gap inside it, 33 and 125 entries at its edges. -/
theorem witness_CharacterToDigitLookup :
    Alphabet.wf defaultAlphabet = true ∧ (32 : Byte).toNat < 33 ∧ 125 < (126 : Byte).toNat ∧
    (33 ≤ (34 : Byte).toNat ∧ (34 : Byte).toNat ≤ 125) ∧ (∀ d, a2c defaultAlphabet d ≠ 34) ∧
    a2c defaultAlphabet 68 = 33 ∧ a2c defaultAlphabet 80 = 125 := ⟨witness_alphabet, by decide +kernel⟩

theorem witness_ReverseLookupIsDerivedFromTheAlphabet :
    Alphabet.wf defaultAlphabet = true ∧ c2d defaultAlphabet 0x7D = some 80 ∧ ∀ d, (0x22 : Byte) ≠ a2c defaultAlphabet d := ⟨witness_alphabet, by decide +kernel⟩

theorem witness_UnpackInvertsPack : unpack 0xDEADBEEF = [0xDE, 0xAD, 0xBE, 0xEF] := by decide +kernel

/-- The greatest tuple below the wrap and the least above it (section 2.7). -/
theorem witness_DigitsInvertAccExactlyBelowTheWrap :
    82 * 85 ^ 4 + 23 * 85 ^ 3 + 54 * 85 ^ 2 + 12 * 85 + 0 = 2 ^ 32 - 1 ∧
    digits (acc [82, 23, 54, 12, 0]) = [82, 23, 54, 12, 0] ∧ digits (acc [82, 23, 54, 12, 1]) ≠ [82, 23, 54, 12, 1] := by
  decide +kernel

theorem witness_OverflowBlocksWrapOnce :
    Alphabet.wf defaultAlphabet = true ∧ digitSum [82, 23, 54, 12, 1] = 2 ^ 32 ∧ digitSum [82, 23, 54, 12, 0] < 2 ^ 32 ∧
    2 ^ 32 ≤ digitSum [84, 84, 84, 84, 84] := ⟨witness_alphabet, by decide +kernel⟩

theorem witness_EncblkIsInjectiveAndValid :
    Alphabet.wf defaultAlphabet = true ∧ encblk defaultAlphabet 255 255 255 255 = [0x25, 0x6E, 0x53, 0x63, 0x30] := ⟨witness_alphabet, by decide +kernel⟩

/-- A valid block, a block with its first byte invalid, a block with its last byte invalid. -/
theorem witness_DecblkValidatesThenUnpacks :
    ([0x48, 0x65, 0x6C, 0x6C, 0x6F].all fun c => (c2d defaultAlphabet c).isSome) = true ∧
    c2d defaultAlphabet 0x20 = none ∧ ([0x30, 0x30, 0x30, 0x30].all fun c => (c2d defaultAlphabet c).isSome) = true ∧
    decblk defaultAlphabet 0x30 0x30 0x30 0x30 0x20 = .error 0x20 := by decide +kernel

theorem witness_BinaryRoundTrip : Alphabet.wf defaultAlphabet = true ∧ v1Bytes.length % 4 = 0 := ⟨witness_alphabet, by decide +kernel⟩

/-- A canonical text at the edge, and an aligned valid text that is not canonical. -/
theorem witness_TextRoundTripExactlyForCanonicalText :
    Alphabet.wf defaultAlphabet = true ∧ CanonicalText defaultAlphabet [0x25, 0x6E, 0x53, 0x63, 0x30] ∧
    AllValid defaultAlphabet [0x23, 0x23, 0x23, 0x23, 0x23] ∧
    decodeBuffer defaultAlphabet [0x23, 0x23, 0x23, 0x23, 0x23] = .ok [0x08, 0x78, 0x0E, 0xC4] ∧
    encodeBuffer defaultAlphabet [0x08, 0x78, 0x0E, 0xC4] = [0x32, 0x5A, 0x75, 0x26, 0x24] := by
  refine ⟨witness_alphabet, ⟨⟨82, 23, 54, 12, 0, ?_⟩, trivial⟩, ?_, by decide +kernel, by decide +kernel⟩
  · decide +kernel
  · intro c hc
    rw [List.eq_of_mem_replicate (n := 5) (a := (0x23 : Byte)) hc]
    decide +kernel

theorem witness_ConcatenationAtBlockBoundaries :
    decodeBuffer defaultAlphabet [0x48, 0x65, 0x6C, 0x6C, 0x6F] = .ok [0x86, 0x4F, 0xD2, 0x6F] ∧
    decodeBuffer defaultAlphabet [0x57, 0x6F, 0x72, 0x6C, 0x64] = .ok [0xB5, 0x59, 0xF7, 0x5B] ∧
    decodeBuffer defaultAlphabet [0x20, 0x6F, 0x72, 0x6C, 0x64] = .error 0x20 := by decide +kernel

theorem witness_EncodingIsInjective :
    Alphabet.wf defaultAlphabet = true ∧ ([1, 2, 3, 4] : List Byte).length % 4 = 0 ∧ CanonicalText defaultAlphabet [] :=
  ⟨witness_alphabet, rfl, trivial⟩

theorem witness_SizeLawsOfTheLengthFunctions : (3 : Nat) ≤ 4 ∧ encLen 3 = 0 ∧ encLen 4 = 5 ∧ decLen 4 = 0 ∧ decLen 5 = 4 := by
  decide

/-- The greatest length that fits 5 bits (24), and the least aligned one that does not (28); an unbounded LEN_W. -/
theorem witness_EnclenGivesTheEncodedLength :
    (sized (some 5) 24).activity = .idle ∧ (sized (some 5) 24).cfg.fits (24 / 4 * 5) = true ∧
    (sized none 28).cfg.fits (28 / 4 * 5) = true := by decide

theorem witness_DeclenGivesTheDecodedLength : (sized (some 5) 31).activity = .idle := by decide

theorem witness_EncodedLengthThatDoesNotFitIsRefused :
    let s : State := { given 2 (List.replicate 28 0) 31 with cfg := ⟨some 5, defaultAlphabet⟩ }
    s.activity = .idle ∧ s.cfg.fits (s.len / 4 * 5) = false ∧ s.len % 4 = 0 ∧ s.overlap = false := by decide +kernel

theorem witness_EncodeTurnsSourceIntoText :
    (given 2 v1Bytes 10).EncodeAdmitted ∧ (given 2 v1Bytes 10).SrcHolds v1Bytes ∧ v1Bytes[4 * 1]? = some 0xB5 ∧
    v1Bytes[4 * 1 + 3]? = some 0x5B := by decide +kernel

theorem witness_DecodeTurnsValidTextIntoBytes :
    (given 3 v1Text 8).DecodeAdmitted ∧ (given 3 v1Text 8).SrcHolds v1Text ∧
    v1Text.all (fun c => (c2d defaultAlphabet c).isSome) = true := by decide +kernel

/-- The invalid byte first in block 1, and last in block 0. -/
theorem witness_InvalidSymbolEndsDecode :
    (given 3 spaceText 8).DecodeAdmitted ∧ (given 3 spaceText 8).FirstInvalid 5 0x20 ∧
    (given 3 [0x30, 0x30, 0x30, 0x30, 0xFF] 4).DecodeAdmitted ∧
    (given 3 [0x30, 0x30, 0x30, 0x30, 0xFF] 4).FirstInvalid 4 0xFF := by decide +kernel

/-- One byte short of a block, with CAP = 0 as in section 2.6, and with no byte of SRC filled. -/
theorem witness_LengthMismatchEndsAtOnce :
    ((given 2 [1, 2, 3] 0).activity = .idle ∧ (given 2 [1, 2, 3] 0).overlap = false ∧ (given 2 [1, 2, 3] 0).len % 4 ≠ 0 ∧
      (given 2 [1, 2, 3] 0).AtRest) ∧
    (sized none 9).activity = .idle ∧ (sized none 9).overlap = false ∧ (sized none 9).len % 5 ≠ 0 := by decide +kernel

/-- A misaligned LEN whose last byte is shared, a CAP one byte short, a DST never given, a LEN whose last byte is not filled. -/
theorem witness_SmallOrOverlappingDestinationIsRefused :
    let o : State := { given 2 [1, 2, 3] 10 with dstBase := 2 }
    let p : State := { given 2 v1Bytes 10 with presented := ⟨true, true, true, true, false⟩, host := [.start] }
    let u : State := { given 3 v1Text 10 with len := 11, host := [.start] }
    (o.activity = .idle ∧ o.overlap = true) ∧
    ((given 2 v1Bytes 9).overlap = false ∧ (given 2 v1Bytes 9).len % 4 = 0 ∧
      (given 2 v1Bytes 9).cfg.fits ((given 2 v1Bytes 9).len / 4 * 5) = true ∧
      (given 2 v1Bytes 9).cap < (given 2 v1Bytes 9).len / 4 * 5) ∧
    ((given 3 v1Text 7).overlap = false ∧ (given 3 v1Text 7).len % 5 = 0 ∧
      (given 3 v1Text 7).cap < (given 3 v1Text 7).len / 5 * 4) ∧
    (p.activity = .idle ∧ p.host = .start :: [] ∧ ¬ p.PresentedFor (decodeOp p.op)) ∧
    u.activity = .idle ∧ u.host = .start :: [] ∧ u.PresentedFor (decodeOp u.op) ∧ decodeOp u.op = .decode ∧ 10 < u.len ∧
      u.srcByte 10 = none := by decide +kernel

/-- One shared byte, and buffers that touch without sharing one. -/
theorem witness_OverlapMeansASharedByte :
    State.overlap { given 2 v1Bytes 10 with dstBase := 7 } = true ∧
    State.overlap { given 2 v1Bytes 10 with dstBase := 8 } = false := by decide +kernel

/-- Serves ZeroLengthEncode and ZeroLengthDecode; CAP is 7 as in section 2.4. -/
theorem witness_zeroLength : (given 2 [] 7).activity = .idle ∧ (given 2 [] 7).len = 0 := by decide

theorem witness_EncodeWritesOnlyItsOutput :
    (∃ t, exec .encode (given 2 v1Bytes 12) = .next t ∧ t.regErr = some 0) ∧
    ∃ t, exec .encode (given 2 [1, 2, 3] 12) = .next t ∧ t.regErr ≠ some 0 :=
  ⟨answers (by decide +kernel), answers (by decide +kernel)⟩

theorem witness_DecodeWritesOnlyItsOutput :
    (∃ t, exec .decode (given 3 v1Text 10) = .next t ∧ t.regErr = some 0) ∧
    (∃ t, exec .decode (given 3 [0x30] 10) = .next t ∧ t.regErr = some 1) ∧
    ∃ t, exec .decode (given 3 spaceText 10) = .next t ∧ t.regErr = some 2 :=
  ⟨answers (by decide +kernel), answers (by decide +kernel), answers (by decide +kernel)⟩

/-- Serves NoOperationChangesTablesOrOperands, SuccessfulSizesFollowTheLengthFunctions and RunningTwiceGivesTheSame too. -/
theorem witness_NoOperationChangesTablesOrOperands :
    (∃ t, exec .enclen (given 0 v1Bytes 0) = .next t ∧ t.regErr = some 0) ∧
    (∃ t, exec .declen (given 1 v1Text 0) = .next t ∧ t.regErr = some 0) ∧
    (∃ t, exec .encode (given 2 v1Bytes 10) = .next t ∧ t.regErr = some 0) ∧
    ∃ t, exec .decode (given 3 v1Text 8) = .next t ∧ t.regErr = some 0 :=
  ⟨answers (by decide +kernel), answers (by decide +kernel), answers (by decide +kernel), answers (by decide +kernel)⟩

theorem witness_LengthFunctionsTouchNoBuffer :
    (∃ t, exec .enclen (sized none 0) = .next t ∧ t.regN = some 0) ∧
    ∃ t, exec .declen (sized none 0) = .next t ∧ t.regN = some 0 :=
  ⟨answers (by decide +kernel), answers (by decide +kernel)⟩

/-- Both ways LENGTH is raised, at the edges of a block. -/
theorem witness_LengthMismatchIsRaisedByMisalignmentOnly :
    (sized none 3).activity = .idle ∧ (sized none 3).overlap = false ∧
    (∃ t, exec .encode (sized none 3) = .next t ∧ t.regErr = some 1) ∧
    (sized none 4).overlap = false ∧ (∃ t, exec .decode (sized none 4) = .next t ∧ t.regErr = some 1) ∧
    ∃ t, exec .encode (given 2 v1Bytes 10) = .next t ∧ t.regErr = some 0 :=
  ⟨rfl, by decide +kernel, answers (by decide +kernel), by decide +kernel, answers (by decide +kernel),
    answers (by decide +kernel)⟩

/-- Two different runs that end with the same invalid byte. -/
theorem witness_InvalidSymbolIsRaisedByDecodeOnly :
    (∃ t, exec .decode (given 3 spaceText 8) = .next t ∧ t.regErr = some 2 ∧ t.regEbyte = some 0x20) ∧
    (∃ t, exec .decode (given 3 [0x20, 0x30, 0x30, 0x30, 0x30] 4) = .next t ∧ t.regErr = some 2 ∧ t.regEbyte = some 0x20) ∧
    (given 3 [0x20, 0x30, 0x30, 0x30, 0x30] 4).DecodeAdmitted ∧
    (given 3 [0x20, 0x30, 0x30, 0x30, 0x30] 4).FirstInvalid 0 0x20 :=
  ⟨answers (by decide +kernel), answers (by decide +kernel), by decide +kernel, by decide +kernel⟩

/-- Aligned and misaligned, filled and not, valid and invalid, a text cut off after its first invalid byte; and for each operation
a state in which it has no outcome. -/
theorem witness_ReadyOperationsComplete :
    let cut : State := { given 3 spaceText 8 with len := 15, cap := 12 }
    (sized (some 5) 24).Ready .enclen ∧ (sized (some 5) 31).Ready .declen ∧ (given 2 v1Bytes 10).Ready .encode ∧
    (sized none 3).Ready .encode ∧ (given 3 v1Text 8).Ready .decode ∧ (given 3 spaceText 8).Ready .decode ∧
    cut.Ready .decode ∧ (sized none 9).Ready .decode ∧
    ¬ (sized (some 5) 28).Ready .enclen ∧ ¬ midEncode.Ready .declen ∧ ¬ (sized none 4).Ready .encode ∧
    ¬ (given 3 v1Text 7).Ready .decode ∧ State.reset.activity = .idle := by
  have he : (given 2 v1Bytes 10).EncodeAdmitted ∧ (given 2 v1Bytes 10).Filled := by decide +kernel
  have hd : (given 3 v1Text 8).DecodeAdmitted ∧ (given 3 v1Text 8).Filled := by decide +kernel
  have hi : (given 3 spaceText 8).DecodeAdmitted ∧ (given 3 spaceText 8).FirstInvalid 5 0x20 := by decide +kernel
  have hc : State.DecodeAdmitted { given 3 spaceText 8 with len := 15, cap := 12 } ∧
      State.FirstInvalid { given 3 spaceText 8 with len := 15, cap := 12 } 5 0x20 := by decide +kernel
  exact ⟨⟨rfl, by decide⟩, rfl, ⟨rfl, he.1.2.2.2.2, fun _ => he⟩, ⟨rfl, by decide, fun h => absurd h (by decide)⟩,
    ⟨rfl, hd.1.2.2.2, fun _ => ⟨hd.1, .inl hd.2⟩⟩, ⟨rfl, hi.1.2.2.2, fun _ => ⟨hi.1, .inr ⟨_, _, hi.2⟩⟩⟩,
    ⟨rfl, hc.1.2.2.2, fun _ => ⟨hc.1, .inr ⟨_, _, hc.2⟩⟩⟩, ⟨rfl, by decide, fun h => absurd h (by decide)⟩,
    fun h => absurd h.2 (by decide), fun h => absurd (show midEncode.activity = .idle from h) (by decide),
    fun h => absurd (h.2.2 rfl).1.2.2.2.1 (by decide), fun h => absurd (h.2.2 rfl).1.2.2.1 (by decide), rfl⟩

theorem resetCfg : State.reset.cfg.wf = true := by
  show ((none : Option Nat) != some 0 && defaultAlphabet.wf) = true
  rw [witness_alphabet]; rfl

/-- The reset state with a move of the host to come meets the invariant and takes a step. So does an instance in the middle of
ENCODE. Serves EveryStepEndsIdle too. -/
theorem witness_StepKeepsTheInvariant :
    State.Inv { State.reset with host := [.setLen 8] } ∧
    (∃ t, step { State.reset with host := [.setLen 8] } = .next t ∧ t.len = 8) ∧
    midEncode.Inv ∧ ∃ t, step midEncode = .next t ∧ t.activity = .idle := by
  refine ⟨⟨resetCfg, .nil, rfl, rfl, fun r h => (by cases h), fun _ => ⟨rfl, rfl, rfl⟩,
    fun h => (by cases h)⟩,
    answers (by decide +kernel), ⟨resetCfg, by decide +kernel, rfl, rfl, fun r h => (by cases h), fun h => (by cases h), fun _ => ?_⟩,
    answers (by decide +kernel)⟩
  show 8 % 4 = 0 ∧ encLen 8 ≤ 10 ∧ 1 ≤ 8 / 4
  decide

/-- ENCODE from 0 to 100, then DECODE from 100 to 200. -/
theorem witness_EncodeThenDecodeRestoresTheSource :
    (given 2 v1Bytes 10).cfg.wf = true ∧ (given 2 v1Bytes 10).EncodeAdmitted ∧ (given 2 v1Bytes 10).SrcHolds v1Bytes ∧
    State.overlap { given 2 v1Bytes 10 with op := 3, srcBase := 100, len := 10, dstBase := 200, cap := 8 } = false :=
  ⟨resetCfg, by decide +kernel⟩

/-- Two states with other buffers, another result and other memory, but the same source bytes. -/
theorem witness_OutcomeDependsOnOperandsAndSourceOnly :
    let s := given 2 v1Bytes 10
    let s' : State :=
      { given 2 [] 0 with
        len := 8, cap := 11, srcBase := 50, dstBase := 0, v := 7, result := some ⟨0, .length⟩,
        mem := Memory.writeList [] 50 v1Bytes }
    s.Ready .encode ∧ s'.Ready .encode ∧ s'.cfg = s.cfg ∧ s'.len = s.len ∧
    (∀ j, j < s.len → s'.srcByte j = s.srcByte j) ∧ ∃ t, exec .encode s = .next t ∧ t.regErr = some 0 := by
  refine ⟨⟨rfl, by decide +kernel, fun _ => ?_⟩, ⟨rfl, by decide +kernel, fun _ => ?_⟩, rfl, rfl, ?_,
    answers (by decide +kernel)⟩
  · decide +kernel
  · decide +kernel
  · decide +kernel

theorem witness_StepViewOfEncode :
    (midEncode.activity = .running ∧ midEncode.k < midEncode.len / 4 ∧ midEncode.srcByte (4 * midEncode.k) = some 0xB5 ∧
      midEncode.srcByte (4 * midEncode.k + 3) = some 0x5B) ∧
    ({ midEncode with k := 2 } : State).k = midEncode.len / 4 ∧ (given 2 v1Bytes 10).EncodeAdmitted ∧
    (given 2 v1Bytes 10).SrcHolds v1Bytes := by decide +kernel

theorem witness_StepViewOfDecode :
    ((midDecode v1Text).activity = .running ∧ (midDecode v1Text).k < (midDecode v1Text).len / 5 ∧
      (midDecode v1Text).srcByte (5 * (midDecode v1Text).k) = some 0x57 ∧
      decblk defaultAlphabet 0x57 0x6F 0x72 0x6C 0x64 = .ok [0xB5, 0x59, 0xF7, 0x5B]) ∧
    ((midDecode spaceText).srcByte (5 * (midDecode spaceText).k) = some 0x20 ∧
      decblk defaultAlphabet 0x20 0x6F 0x72 0x6C 0x64 = .error 0x20) ∧
    ({ midDecode v1Text with k := 2 } : State).k = (midDecode v1Text).len / 5 ∧ (given 3 v1Text 8).DecodeAdmitted := by
  decide +kernel

/-- Two writes in either order give equal memories. -/
theorem witness_EqualMemoriesAreEqualData :
    Memory.wf (Memory.write (Memory.write [] 5 1) 3 2) ∧ Memory.wf (Memory.write (Memory.write [] 3 2) 5 1) ∧
    Memory.write (Memory.write [] 5 1) 3 2 = Memory.write (Memory.write [] 3 2) 5 1 := by decide +kernel

/-- Two runs whose sources differ in every byte: one text is valid, the other not. -/
theorem witness_EndedOperationKeepsNothingOfTheBuffers :
    (∃ t, exec .decode (given 3 v1Text 8) = .next t ∧ t.regErr = some 0) ∧
    ∃ t, exec .decode { given 3 v1Text 8 with mem := (given 3 (List.replicate 10 0x7E) 8).mem } = .next t ∧
      t.regErr = some 2 :=
  ⟨answers (by decide +kernel), answers (by decide +kernel)⟩

end Sys2Proof.Tests
end

section
/-! PROOFS. PACK and UNPACK (spec/30_encoding.md R44, R45): as shifts and masks, as fields of the value, and as each other's
inverse. -/

namespace Sys2Proof.Machine

/-- Widened to a value, a byte loses no bit in a shift to one of the four places of R44. -/
theorem toNat_setWidth_shiftLeft (b : Byte) {n : Nat} (hn : n ≤ 24) :
    (b.setWidth 32 <<< n).toNat = b.toNat <<< n := by
  have hlt : b.toNat <<< n < 2 ^ 32 :=
    (Nat.shiftLeft_lt b.isLt).trans_le (Nat.pow_le_pow_right (by omega) (by omega))
  rw [BitVec.toNat_shiftLeft, BitVec.toNat_setWidth_of_le (by omega), Nat.mod_eq_of_lt hlt]

theorem pack_toNat_eq_or_shiftLeft (b0 b1 b2 b3 : Byte) :
    (pack b0 b1 b2 b3).toNat = (b0.toNat <<< 24 ||| b1.toNat <<< 16 ||| b2.toNat <<< 8 ||| b3.toNat) := by
  rw [pack, BitVec.toNat_or, BitVec.toNat_or, BitVec.toNat_or, toNat_setWidth_shiftLeft b0 (by omega),
    toNat_setWidth_shiftLeft b1 (by omega), toNat_setWidth_shiftLeft b2 (by omega),
    BitVec.toNat_setWidth_of_le (by omega)]

theorem unpack_eq_fields (v : Value) :
    unpack v = [v.extractLsb' 24 8, v.extractLsb' 16 8, v.extractLsb' 8 8, v.extractLsb' 0 8] := by
  rw [unpack, BitVec.setWidth_ushiftRight_eq_extractLsb, BitVec.setWidth_ushiftRight_eq_extractLsb,
    BitVec.setWidth_ushiftRight_eq_extractLsb, BitVec.setWidth_eq_extractLsb' (by omega)]

/-- The fields of a packed value are the bytes in order, because UNPACK reads the fields and undoes PACK. -/
theorem pack_fields (b0 b1 b2 b3 : Byte) :
    (pack b0 b1 b2 b3).extractLsb' 24 8 = b0 ∧ (pack b0 b1 b2 b3).extractLsb' 16 8 = b1 ∧
    (pack b0 b1 b2 b3).extractLsb' 8 8 = b2 ∧ (pack b0 b1 b2 b3).extractLsb' 0 8 = b3 := by
  have h := unpack_pack b0 b1 b2 b3
  simpa only [unpack_eq_fields, List.cons.injEq, and_true] using h

theorem unpack_toNat_eq_and_mask (v : Value) : (unpack v).map BitVec.toNat =
    [(v.toNat >>> 24) &&& 0xFF, (v.toNat >>> 16) &&& 0xFF, (v.toNat >>> 8) &&& 0xFF, v.toNat &&& 0xFF] := by
  have mask (n : Nat) : n &&& 0xFF = n % 2 ^ 8 := Nat.and_two_pow_sub_one_eq_mod n 8
  simp only [unpack_eq_fields, List.map_cons, List.map_nil, BitVec.extractLsb'_toNat, mask, Nat.shiftRight_zero]

/-- PACK undoes UNPACK, for the four bytes by whatever name. -/
theorem pack_of_unpack_eq {v : Value} {b0 b1 b2 b3 : Byte} (h : unpack v = [b0, b1, b2, b3]) :
    pack b0 b1 b2 b3 = v := by
  simp only [unpack, List.cons.injEq, and_true] at h
  obtain ⟨rfl, rfl, rfl, rfl⟩ := h
  exact pack_unpack v

end Sys2Proof.Machine

namespace Sys2Proof.Proofs

open Sys2Proof Sys2Proof.Machine

/-- Settles O16: the sum is `pack_toNat`, and the fields are what UNPACK gives back. -/
theorem packIsBigEndian : Obligations.PackIsBigEndian := by
  unfold Obligations.PackIsBigEndian
  refine ⟨fun b0 b1 b2 b3 => ?_, ?_⟩
  · exact ⟨pack_toNat b0 b1 b2 b3, pack_toNat_eq_or_shiftLeft b0 b1 b2 b3, pack_fields b0 b1 b2 b3⟩
  · rw [pack_toNat]
    decide

/-- Settles O17: the two forms of UNPACK, the two round trips, and the example of R45. -/
theorem unpackInvertsPack : Obligations.UnpackInvertsPack := by
  unfold Obligations.UnpackInvertsPack
  refine ⟨fun v => ⟨unpack_eq_fields v, unpack_toNat_eq_and_mask v⟩, unpack_pack, ?_, by decide⟩
  intro v b0 b1 b2 b3 h
  exact pack_of_unpack_eq h

end Sys2Proof.Proofs
end

section
/-! PROOFS. The two look-ups A2C and C2D (spec/40_alphabet_table.md R60, R62, R63): A2C stays inside the span, and C2D is its
inverse with INVALID everywhere else. -/

namespace Sys2Proof.Machine

theorem Alphabet.wf_inSpan {al : Alphabet} (h : al.wf = true) : al.inSpan = true := by
  simp only [Alphabet.wf, Bool.and_eq_true] at h
  obtain ⟨⟨⟨_, hspan⟩, _⟩, _⟩ := h
  exact hspan

theorem a2c_mem_toList (al : Alphabet) (d : Digit) : a2c al d ∈ al.toList := by
  simp [a2c]

theorem a2c_inSpan {al : Alphabet} (h : al.inSpan = true) (d : Digit) :
    33 ≤ (a2c al d).toNat ∧ (a2c al d).toNat ≤ 125 := by
  have hd := List.all_eq_true.1 h (a2c al d) (a2c_mem_toList al d)
  simp only [Bool.and_eq_true, decide_eq_true_eq] at hd
  exact hd

theorem c2d_eq_some_iff {al : Alphabet} (h : al.distinct = true) {b : Byte} {d : Digit} :
    c2d al b = some d ↔ a2c al d = b := by
  constructor
  · exact a2c_of_c2d
  · rintro rfl
    exact c2d_a2c h d

theorem c2d_eq_none_of_outside_span {al : Alphabet} (h : al.inSpan = true) {b : Byte}
    (hb : b.toNat < 33 ∨ 125 < b.toNat) : c2d al b = none := by
  refine c2d_eq_none_iff.2 fun d hd => ?_
  obtain ⟨hmin, hmax⟩ := a2c_inSpan h d
  rw [hd] at hmin hmax
  omega

end Sys2Proof.Machine

namespace Sys2Proof.Proofs

open Sys2Proof Sys2Proof.Machine

/-- Settles O12: valid because C2D undoes A2C, in the span and injective by R49 (c) and (a); the five examples of R60 are
evaluated. -/
theorem digitToCharacterLookup : Obligations.DigitToCharacterLookup := by
  unfold Obligations.DigitToCharacterLookup
  refine ⟨fun al hwf => ⟨fun d => ⟨?_, a2c_inSpan (Alphabet.wf_inSpan hwf) d⟩, fun d e he => ?_⟩, by decide⟩
  · rw [c2d_a2c (Alphabet.wf_distinct hwf), Option.isSome_some]
  · exact a2c_injective (Alphabet.wf_distinct hwf) he

/-- Settles O13: outside the span no digit has the byte, and inside it C2D answers the digit that has it, if any; the seven
examples of R62 are evaluated. -/
theorem characterToDigitLookup : Obligations.CharacterToDigitLookup := by
  unfold Obligations.CharacterToDigitLookup
  refine ⟨fun al hwf b => ⟨?outside, fun _ hgap => ?gap, fun _ d hd => ?digit⟩, by decide⟩
  case outside => exact c2d_eq_none_of_outside_span (Alphabet.wf_inSpan hwf)
  case gap => exact c2d_eq_none_iff.2 hgap
  case digit => exact (c2d_eq_some_iff (Alphabet.wf_distinct hwf)).2 hd

/-- Settles O14: the first law is R49 (a); the other two say what a search over ALPHA can answer. -/
theorem reverseLookupIsDerivedFromTheAlphabet : Obligations.ReverseLookupIsDerivedFromTheAlphabet := by
  unfold Obligations.ReverseLookupIsDerivedFromTheAlphabet
  intro al hwf
  refine ⟨c2d_a2c (Alphabet.wf_distinct hwf), fun _ _ => a2c_of_c2d, fun b hb => ?_⟩
  exact c2d_eq_none_iff.2 fun d => (hb d).symm

end Sys2Proof.Proofs
end

section
/-! PROOFS. The length functions ENCLEN and DECLEN (spec/41_length_functions.md R66, R67): what an end without an error leaves
in the registers, and what the two operations answer on an idle instance. -/

namespace Sys2Proof.Machine

theorem State.sameCommand_finish (s : State) (r : Result) : SameCommand s (s.finish r) := by
  simp [SameCommand]

@[simp] theorem State.regN_finish_success (s : State) (n : Nat) : (s.finish (success n)).regN = some n := rfl
@[simp] theorem State.regErr_finish_success (s : State) (n : Nat) : (s.finish (success n)).regErr = some 0 := rfl
@[simp] theorem State.regEbyte_finish_success (s : State) (n : Nat) : (s.finish (success n)).regEbyte = none := rfl

theorem exec_enclen_of_idle {s : State} (h : s.activity = .idle) : exec .enclen s = enclenStep s :=
  whenIdle_idle (enclenStep s) h

theorem exec_declen_of_idle {s : State} (h : s.activity = .idle) : exec .declen s = declenStep s :=
  whenIdle_idle (declenStep s) h

theorem enclenStep_of_fits {s : State} (h : s.cfg.fits (encLen s.len) = true) :
    enclenStep s = .next (s.finish (success (encLen s.len))) := if_pos h

/-- Only the whole blocks of a length count for ENCLEN (R66). -/
theorem encLen_div_mul (n : Nat) : encLen (n / 4 * 4) = encLen n := by
  rw [encLen, encLen, Nat.mul_div_cancel _ (by decide)]

/-- DECLEN never exceeds its operand, so its result always fits (R67, R69). -/
theorem decLen_le (n : Nat) : decLen n ≤ n :=
  calc n / 5 * 4 ≤ n / 5 * 5 := Nat.mul_le_mul_left _ (by decide)
    _ ≤ n := Nat.div_mul_le_self n 5

end Sys2Proof.Machine

namespace Sys2Proof.Proofs

open Sys2Proof Sys2Proof.Machine

/-- Settles O30: on an idle instance ENCLEN is its one computation, and a result that fits ends it with N = ENCLEN(LEN), which
ENCLEN of the whole blocks of LEN equals. -/
theorem enclenGivesTheEncodedLength : Obligations.EnclenGivesTheEncodedLength := by
  unfold Obligations.EnclenGivesTheEncodedLength
  intro s hidle hfits
  refine ⟨s.finish (success (encLen s.len)), ?runs, s.finish_mem _, s.sameCommand_finish _, s.regN_finish_success _,
    ?wholeBlocks, s.regErr_finish_success _, s.regEbyte_finish_success _⟩
  case runs => rw [exec_enclen_of_idle hidle, enclenStep_of_fits hfits]
  case wholeBlocks => exact congrArg some (encLen_div_mul s.len).symm

/-- Settles O31: on an idle instance DECLEN is its one computation, which ends with N = DECLEN(LEN) whatever LEN is. -/
theorem declenGivesTheDecodedLength : Obligations.DeclenGivesTheDecodedLength := by
  unfold Obligations.DeclenGivesTheDecodedLength
  intro s hidle
  exact ⟨s.finish (success (decLen s.len)), exec_declen_of_idle hidle, s.finish_mem _, s.sameCommand_finish _,
    s.regN_finish_success _, decLen_le s.len, s.regErr_finish_success _, s.regEbyte_finish_success _⟩

end Sys2Proof.Proofs
end

section
/-! PROOFS. ENCBLK (spec/42_encoder.md R72) and ENCODE without an error (R75 to R77): what one block's text says about its
bytes, where the text of block `k` stands, and what an admitted ENCODE answers. -/

namespace Sys2Proof.Machine

/-- DIGITS loses nothing, because ACC undoes it. -/
theorem digits_injective : Function.Injective digits :=
  Function.LeftInverse.injective acc_digits

/-- R46: a value below `2^32` leaves the first digit no more than 82. -/
theorem digitAt_zero_le (v : Value) : (digitAt v 0).val ≤ 82 := by
  have hv := v.isLt
  have hquot : v.toNat / 85 ^ 4 ≤ 82 := by omega
  exact (Nat.mod_le _ 85).trans hquot

/-- PACK loses nothing, because UNPACK undoes it. -/
theorem pack_inj {b0 b1 b2 b3 x0 x1 x2 x3 : Byte} (h : pack b0 b1 b2 b3 = pack x0 x1 x2 x3) :
    b0 = x0 ∧ b1 = x1 ∧ b2 = x2 ∧ b3 = x3 := by
  have hbytes := congrArg unpack h
  simpa only [unpack_pack, List.cons.injEq, and_true] using hbytes

/-- ENCBLK is injective, because each of its three stages is. -/
theorem encblk_inj {al : Alphabet} (h : al.distinct = true) {b0 b1 b2 b3 x0 x1 x2 x3 : Byte}
    (he : encblk al b0 b1 b2 b3 = encblk al x0 x1 x2 x3) : b0 = x0 ∧ b1 = x1 ∧ b2 = x2 ∧ b3 = x3 := by
  have hmap : Function.Injective (List.map (a2c al)) := List.map_injective_iff.2 fun _ _ => a2c_injective h
  exact pack_inj (digits_injective (hmap he))

theorem allValid_map_a2c {al : Alphabet} (h : al.distinct = true) (ds : List Digit) : AllValid al (ds.map (a2c al)) := by
  intro c hc
  obtain ⟨d, -, rfl⟩ := List.mem_map.1 hc
  rw [c2d_a2c h, Option.isSome_some]

theorem encblk_allValid {al : Alphabet} (h : al.distinct = true) (b0 b1 b2 b3 : Byte) :
    AllValid al (encblk al b0 b1 b2 b3) := allValid_map_a2c h _

theorem encblk_head? (al : Alphabet) (b0 b1 b2 b3 : Byte) :
    (encblk al b0 b1 b2 b3).head? = some (a2c al (digitAt (pack b0 b1 b2 b3) 0)) := rfl

/-- The character of a digit above 82 is never the first of a block. -/
theorem encblk_head?_ne {al : Alphabet} (h : al.distinct = true) (b0 b1 b2 b3 : Byte) {d : Digit} (hd : 82 < d.val) :
    (encblk al b0 b1 b2 b3).head? ≠ some (a2c al d) := by
  intro he
  rw [encblk_head?] at he
  have hfirst := digitAt_zero_le (pack b0 b1 b2 b3)
  rw [a2c_injective h (Option.some.inj he)] at hfirst
  omega

/-- R75: block `k` of the text is ENCBLK of block `k` of the bytes, whatever the other blocks hold. -/
theorem encodeBuffer_block (al : Alphabet) {bs : List Byte} {k i : Nat} {b0 b1 b2 b3 : Byte}
    (h0 : bs[4 * k]? = some b0) (h1 : bs[4 * k + 1]? = some b1) (h2 : bs[4 * k + 2]? = some b2)
    (h3 : bs[4 * k + 3]? = some b3) (hi : i < 5) :
    (encodeBuffer al bs)[5 * k + i]? = (encblk al b0 b1 b2 b3)[i]? := by
  induction k generalizing bs with
  | zero =>
    match bs with
    | x0 :: x1 :: x2 :: x3 :: rest =>
      obtain ⟨rfl, rfl, rfl, rfl⟩ : x0 = b0 ∧ x1 = b1 ∧ x2 = b2 ∧ x3 = b3 :=
        ⟨Option.some.inj h0, Option.some.inj h1, Option.some.inj h2, Option.some.inj h3⟩
      rw [encodeBuffer, Nat.mul_zero, Nat.zero_add, List.getElem?_append_left (by rwa [encblk_length])]
  | succ k ih =>
    match bs with
    | x0 :: x1 :: x2 :: x3 :: rest =>
      have hrest := ih (bs := rest) h0 h1 h2 h3
      rw [encodeBuffer, List.getElem?_append_right (by rw [encblk_length]; omega), encblk_length, ← hrest]
      congr 1
      omega

theorem State.dstHolds_dstWrite (s : State) (bs : List Byte) : (s.dstWrite 0 bs).DstHolds bs := fun j hj =>
  Memory.read_writeList_inside s.mem s.dstBase j bs hj

@[simp] theorem State.begin_srcByte (s : State) (j : Nat) : s.begin.srcByte j = s.srcByte j := rfl

theorem exec_encode_of_admitted {s : State} (h : s.EncodeAdmitted) : exec .encode s = resumeEncode s.begin := by
  obtain ⟨hidle, haligned, hfits, hcap, hdisjoint⟩ := h
  calc exec .encode s = checked s 4 (encLen s.len) (s.cfg.fits (encLen s.len)) resumeEncode := whenIdle_idle _ hidle
    _ = resumeEncode s.begin := checked_pass resumeEncode hdisjoint haligned hfits hcap

/-- R71, R76: an admitted ENCODE over filled bytes writes their whole text from DST's first byte on and ends with
N = ENCLEN(LEN). -/
theorem exec_encode_of_srcHolds {s : State} {bs : List Byte} (h : s.EncodeAdmitted) (hsrc : s.SrcHolds bs) :
    exec .encode s = .next ((s.dstWrite 0 (encodeBuffer s.cfg.alphabet bs)).finish (success (encLen s.len))) := by
  have ⟨_, haligned, _, hcap, hdisjoint⟩ := h
  obtain ⟨hlen, hbytes⟩ := hsrc
  have hapart : ∀ x y, x < 4 * (s.len / 4) → y < 5 * (s.len / 4) →
      s.srcBase + 4 * 0 + x ≠ s.dstBase + 5 * 0 + y := by
    intro x y hx hy
    exact disjoint_of_overlap hdisjoint (by omega) (by rw [encLen] at hcap; omega)
  have hrun := drive_encode (s.len / 4) s.begin bs rfl (Nat.zero_add _) (by omega)
    (fun j hj => by simpa only [State.begin_k, State.begin_srcByte, Nat.mul_zero, Nat.zero_add] using hbytes j hj) hapart
  exact (exec_encode_of_admitted h).trans hrun

theorem Config.fits_zero (c : Config) : c.fits 0 = true := by
  unfold Config.fits
  split
  · rfl
  · exact decide_eq_true (Nat.two_pow_pos _)

/-- R77: with LEN = 0 every check passes, whatever CAP is and wherever the buffers lie. -/
theorem encodeAdmitted_of_len_zero {s : State} (hidle : s.activity = .idle) (hlen : s.len = 0) : s.EncodeAdmitted := by
  have hneed : encLen s.len = 0 := congrArg encLen hlen
  have hdisjoint : s.overlap = false := decide_eq_false fun ⟨hpos, _⟩ => by omega
  exact ⟨hidle, by omega, hneed ▸ Config.fits_zero s.cfg, hneed ▸ Nat.zero_le _, hdisjoint⟩

end Sys2Proof.Machine

namespace Sys2Proof.Proofs

open Sys2Proof Sys2Proof.Machine

/-- Settles O22: ENCBLK composes three injective stages; its bytes are characters of digits, the first of a digit of at most
82; the examples of R72 are evaluated. -/
theorem encblkIsInjectiveAndValid : Obligations.EncblkIsInjectiveAndValid := by
  unfold Obligations.EncblkIsInjectiveAndValid
  refine ⟨fun al b0 b1 b2 b3 => ?stages, fun al hwf => ?laws, by decide, by decide, by decide⟩
  case stages => exact ⟨_, _, _, _, _, digits_eq (pack b0 b1 b2 b3), rfl⟩
  case laws =>
    have hdistinct := Alphabet.wf_distinct hwf
    refine ⟨fun _ _ _ _ _ _ _ _ => encblk_inj hdistinct, fun b0 b1 b2 b3 => ⟨encblk_allValid hdistinct b0 b1 b2 b3, ?_, ?_⟩⟩
    · exact encblk_head?_ne hdistinct b0 b1 b2 b3 (by decide)
    · exact encblk_head?_ne hdistinct b0 b1 b2 b3 (by decide)

/-- Settles O33: the run writes the whole text of the source, and the text of block `k` stands in it at `5 * k`. -/
theorem encodeTurnsSourceIntoText : Obligations.EncodeTurnsSourceIntoText := by
  unfold Obligations.EncodeTurnsSourceIntoText
  intro s bs hadm hsrc
  have ⟨_, haligned, _⟩ := hadm
  have hlen : s.len = bs.length := hsrc.1
  have htext : (encodeBuffer s.cfg.alphabet bs).length = 5 * (s.len / 4) :=
    encodeBuffer_length s.cfg.alphabet bs (s.len / 4) (by omega)
  have hdst := s.dstHolds_dstWrite (encodeBuffer s.cfg.alphabet bs)
  refine ⟨_, exec_encode_of_srcHolds hadm hsrc, State.finish_activity _ _, State.regN_finish_success _ _,
    State.regErr_finish_success _ _, State.regEbyte_finish_success _ _, htext.trans (Nat.mul_comm _ _), hdst, ?block⟩
  case block =>
    intro k b0 b1 b2 b3 h0 h1 h2 h3 i hi
    obtain ⟨hlast, -⟩ := List.getElem?_eq_some_iff.1 h3
    exact (hdst (5 * k + i) (by omega)).trans (encodeBuffer_block s.cfg.alphabet h0 h1 h2 h3 hi)

/-- Settles O39: the checks pass, and the text of no bytes is empty, so nothing is written. -/
theorem zeroLengthEncode : Obligations.ZeroLengthEncode := by
  unfold Obligations.ZeroLengthEncode
  intro s hidle hlen
  have hsrc : s.SrcHolds [] := ⟨hlen, fun j hj => absurd hj (Nat.not_lt_zero j)⟩
  refine ⟨_, exec_encode_of_srcHolds (encodeAdmitted_of_len_zero hidle hlen) hsrc, rfl, State.sameCommand_finish s _, ?n,
    State.regErr_finish_success _ _, State.regEbyte_finish_success _ _⟩
  case n => rw [State.regN_finish_success, hlen, encLen]

end Sys2Proof.Proofs
end

section
/-! PROOFS. DECBLK (spec/43_decoder.md R83) and DECODE without an error (R89, R91): what the character loop answers for digits
and at the first invalid byte, and what an admitted DECODE of a valid text answers. -/

namespace Sys2Proof.Machine

theorem decblk_of_ok {al : Alphabet} {c0 c1 c2 c3 c4 : Byte} {v : Value}
    (h : decAccumulate al 0 [c0, c1, c2, c3, c4] = .ok v) : decblk al c0 c1 c2 c3 c4 = .ok (unpack v) := by
  rw [decblk, h]

theorem decblk_of_error {al : Alphabet} {c0 c1 c2 c3 c4 b : Byte}
    (h : decAccumulate al 0 [c0, c1, c2, c3, c4] = .error b) : decblk al c0 c1 c2 c3 c4 = .error b := by
  rw [decblk, h]

/-- Over characters that have digits the loop of DECBLK is the loop of ACC. No condition on the alphabet is needed. -/
theorem decAccumulate_of_digits {al : Alphabet} {cs : List Byte} {ds : List Digit} (v : Value)
    (h : List.Forall₂ (fun c d => c2d al c = some d) cs ds) : decAccumulate al v cs = .ok (ds.foldl accStep v) := by
  induction h generalizing v with
  | nil => rfl
  | cons hd _ ih => simp only [decAccumulate, hd, ih, List.foldl_cons]

/-- R83, R84: the loop of DECBLK answers the invalid byte of least index, whatever comes after it. -/
theorem decAccumulate_first_invalid {al : Alphabet} {cs : List Byte} {p : Nat} {b : Byte} (v : Value)
    (hp : cs[p]? = some b) (hb : c2d al b = none)
    (hbefore : ∀ q c, q < p → cs[q]? = some c → (c2d al c).isSome = true) : decAccumulate al v cs = .error b := by
  induction cs generalizing p v with
  | nil => cases hp
  | cons c cs ih =>
    cases p with
    | zero =>
      obtain rfl : c = b := Option.some.inj hp
      simp only [decAccumulate, hb]
    | succ p =>
      obtain ⟨d, hd⟩ := Option.isSome_iff_exists.1 (hbefore 0 c (Nat.succ_pos p) rfl)
      simp only [decAccumulate, hd]
      exact ih (accStep v d) hp fun q x hq hx => hbefore (q + 1) x (Nat.succ_lt_succ hq) hx

theorem exec_decode_of_admitted {s : State} (h : s.DecodeAdmitted) : exec .decode s = resumeDecode s.begin := by
  obtain ⟨hidle, haligned, hcap, hdisjoint⟩ := h
  calc exec .decode s = checked s 5 (decLen s.len) true resumeDecode := whenIdle_idle _ hidle
    _ = resumeDecode s.begin := checked_pass resumeDecode hdisjoint haligned rfl hcap

/-- R89: past the last block a running DECODE writes N = DECLEN(LEN) and ends. -/
theorem decodeStep_of_last {s : State} (h : s.k = s.len / 5) :
    decodeStep s = .next (s.finish (success (decLen s.len))) := by
  rw [decodeStep, if_neg (by omega)]

/-- R81, R89: an admitted DECODE over a text that decodes writes all its bytes from DST's first byte on and ends with
N = DECLEN(LEN). -/
theorem exec_decode_of_srcHolds {s : State} {cs bs : List Byte} (h : s.DecodeAdmitted) (hsrc : s.SrcHolds cs)
    (hbs : decodeBuffer s.cfg.alphabet cs = .ok bs) :
    exec .decode s = .next ((s.dstWrite 0 bs).finish (success (decLen s.len))) := by
  have ⟨_, haligned, hcap, hdisjoint⟩ := h
  obtain ⟨hlen, hbytes⟩ := hsrc
  have hapart : ∀ x y, x < 5 * (s.len / 5) → y < 4 * (s.len / 5) →
      s.srcBase + 5 * 0 + x ≠ s.dstBase + 4 * 0 + y := by
    intro x y hx hy
    exact disjoint_of_overlap hdisjoint (by omega) (by rw [decLen] at hcap; omega)
  obtain ⟨v, i, hblocks⟩ := drive_decode_valid (s.len / 5) 1 s.begin cs bs rfl (Nat.zero_add _).le (by omega)
    (fun j hj => by simpa only [State.begin_k, State.begin_srcByte, Nat.mul_zero, Nat.zero_add] using hbytes j hj) hapart
    hbs
  exact (exec_decode_of_admitted h).trans (hblocks.trans (drive_ends 0 (decodeStep_of_last (Nat.zero_add _)) rfl))

/-- R91: with LEN = 0 every check passes, whatever CAP is and wherever the buffers lie. -/
theorem decodeAdmitted_of_len_zero {s : State} (hidle : s.activity = .idle) (hlen : s.len = 0) : s.DecodeAdmitted := by
  have hneed : decLen s.len = 0 := congrArg decLen hlen
  have ⟨_, _, _, _, hdisjoint⟩ := encodeAdmitted_of_len_zero hidle hlen
  exact ⟨hidle, by omega, hneed ▸ Nat.zero_le _, hdisjoint⟩

end Sys2Proof.Machine

namespace Sys2Proof.Proofs

open Sys2Proof Sys2Proof.Machine

/-- Settles O23: the character loop is ACC over digits and stops at the invalid byte of least index; the example of R83 is
evaluated. -/
theorem decblkValidatesThenUnpacks : Obligations.DecblkValidatesThenUnpacks := by
  unfold Obligations.DecblkValidatesThenUnpacks
  refine ⟨fun al c0 c1 c2 c3 c4 => ⟨?valid, ?invalid⟩, by decide⟩
  case valid =>
    intro d0 d1 d2 d3 d4 h0 h1 h2 h3 h4
    exact decblk_of_ok (decAccumulate_of_digits 0 (.cons h0 (.cons h1 (.cons h2 (.cons h3 (.cons h4 .nil))))))
  case invalid =>
    intro p b hp hb hbefore
    exact decblk_of_error (decAccumulate_first_invalid 0 hp hb hbefore)

/-- Settles O34: a valid text of whole blocks decodes to four bytes a block, and the run writes them all. -/
theorem decodeTurnsValidTextIntoBytes : Obligations.DecodeTurnsValidTextIntoBytes := by
  unfold Obligations.DecodeTurnsValidTextIntoBytes
  intro s cs hadm hsrc hvalid
  have ⟨_, haligned, _⟩ := hadm
  have hlen : s.len = cs.length := hsrc.1
  have hblocks : cs.length = 5 * (s.len / 5) := by omega
  obtain ⟨bs, hbs⟩ := decodeBuffer_valid (s.len / 5) hblocks hvalid
  have hbytes : bs.length = 4 * (s.len / 5) := decodeBuffer_ok_length s.cfg.alphabet (s.len / 5) cs bs hblocks hbs
  exact ⟨bs, _, hbs, hbytes.trans (Nat.mul_comm _ _), exec_decode_of_srcHolds hadm hsrc hbs, State.finish_activity _ _,
    State.regN_finish_success _ _, State.regErr_finish_success _ _, State.regEbyte_finish_success _ _,
    s.dstHolds_dstWrite bs⟩

/-- Settles O40: the checks pass, and no text decodes to no bytes, so nothing is written. -/
theorem zeroLengthDecode : Obligations.ZeroLengthDecode := by
  unfold Obligations.ZeroLengthDecode
  intro s hidle hlen
  have hsrc : s.SrcHolds [] := ⟨hlen, fun j hj => absurd hj (Nat.not_lt_zero j)⟩
  refine ⟨_, exec_decode_of_srcHolds (decodeAdmitted_of_len_zero hidle hlen) hsrc rfl, rfl, State.sameCommand_finish s _, ?n,
    State.regErr_finish_success _ _, State.regEbyte_finish_success _ _⟩
  case n => rw [State.regN_finish_success, hlen, decLen]

end Sys2Proof.Proofs
end

section
/-! PROOFS. The round trip of whole buffers (spec/44_roundtrip_laws.md R94) and the sizes of a success (R97): what DECODE makes
of a text of ENCODE, and all that each of the four operations can answer. -/

namespace Sys2Proof.Machine

/-- The loop of DECBLK over the text of one block gives back the value ENCBLK wrote out, because ACC undoes DIGITS. -/
theorem decAccumulate_encblk {al : Alphabet} (h : al.distinct = true) (b0 b1 b2 b3 : Byte) :
    decAccumulate al 0 (encblk al b0 b1 b2 b3) = .ok (pack b0 b1 b2 b3) :=
  (decAccumulate_map_a2c h (digits (pack b0 b1 b2 b3)) 0).trans (congrArg Except.ok (acc_digits _))

theorem decodeBuffer_block {al : Alphabet} {c0 c1 c2 c3 c4 : Byte} {v : Value} {text bs : List Byte}
    (hv : decAccumulate al 0 [c0, c1, c2, c3, c4] = .ok v) (htext : decodeBuffer al text = .ok bs) :
    decodeBuffer al (c0 :: c1 :: c2 :: c3 :: c4 :: text) = .ok (unpack v ++ bs) := by
  simp only [decodeBuffer, decblk_of_ok hv, htext]

/-- A text that begins with the text of a block decodes to the bytes of that block and what the rest decodes to. -/
theorem decodeBuffer_encblk_append {al : Alphabet} (h : al.distinct = true) (b0 b1 b2 b3 : Byte) {text bs : List Byte}
    (htext : decodeBuffer al text = .ok bs) :
    decodeBuffer al (encblk al b0 b1 b2 b3 ++ text) = .ok (b0 :: b1 :: b2 :: b3 :: bs) := by
  have hblock := decodeBuffer_block (decAccumulate_encblk h b0 b1 b2 b3) htext
  rwa [unpack_pack] at hblock

theorem decodeBuffer_encodeBuffer {al : Alphabet} (h : al.distinct = true) (n : Nat) {bs : List Byte}
    (hlen : bs.length = 4 * n) : decodeBuffer al (encodeBuffer al bs) = .ok bs := by
  induction n generalizing bs with
  | zero => rw [List.eq_nil_of_length_eq_zero hlen]; rfl
  | succ n ih =>
    match bs, hlen with
    | b0 :: b1 :: b2 :: b3 :: rest, hlen =>
      simp only [List.length_cons] at hlen
      exact decodeBuffer_encblk_append h b0 b1 b2 b3 (ih (by omega))

theorem encodeBuffer_allValid {al : Alphabet} (h : al.distinct = true) (bs : List Byte) :
    AllValid al (encodeBuffer al bs) := by
  induction bs using encodeBuffer.induct with
  | case1 b0 b1 b2 b3 rest ih =>
    rw [encodeBuffer]
    exact List.forall_mem_append.2 ⟨encblk_allValid h b0 b1 b2 b3, ih⟩
  | case2 bs hshort =>
    rw [encodeBuffer]
    · exact List.forall_mem_nil _
    · exact hshort

@[simp] theorem State.regErr_raise (s : State) (e : Err) : (s.raise e).regErr = some e.code := rfl

/-- All that ENCLEN can answer. -/
theorem exec_enclen_next {s t : State} (h : exec .enclen s = .next t) :
    s.activity = .idle ∧ s.cfg.fits (encLen s.len) = true ∧ t = s.finish (success (encLen s.len)) := by
  obtain ⟨hidle, hstep⟩ := whenIdle_next h
  unfold enclenStep at hstep
  split_ifs at hstep with hfits
  exact ⟨hidle, hfits, (Host.Outcome.next.inj hstep).symm⟩

/-- All that DECLEN can answer. -/
theorem exec_declen_next {s t : State} (h : exec .declen s = .next t) :
    s.activity = .idle ∧ t = s.finish (success (decLen s.len)) := by
  obtain ⟨hidle, hstep⟩ := whenIdle_next h
  exact ⟨hidle, (Host.Outcome.next.inj hstep).symm⟩

/-- All that ENCODE can answer: LENGTH, or it was admitted and has written five bytes a block. -/
theorem exec_encode_next {s t : State} (h : exec .encode s = .next t) :
    (s.activity = .idle ∧ s.overlap = false ∧ s.len % 4 ≠ 0 ∧ t = s.raise .length) ∨
    (s.EncodeAdmitted ∧ ∃ out, out.length = 5 * (s.len / 4) ∧
      t = (s.dstWrite 0 out).finish (success (encLen s.len))) := by
  obtain ⟨hidle, hchecked⟩ := whenIdle_next h
  obtain ⟨hdisjoint, ⟨hmisaligned, rfl⟩ | ⟨haligned, hfits, hcap, hrun⟩⟩ := checked_next hchecked
  · exact .inl ⟨hidle, hdisjoint, hmisaligned, rfl⟩
  · obtain ⟨out, hout, rfl⟩ := drive_encode_next (s.len / 4) rfl rfl hrun
    exact .inr ⟨⟨hidle, haligned, hfits, hcap, hdisjoint⟩, out, hout, rfl⟩

/-- All that DECODE can answer: LENGTH, or it was admitted and has written four bytes a block, or Invalid Symbol ended it in
block `m`. -/
theorem exec_decode_next {s t : State} (h : exec .decode s = .next t) :
    (s.activity = .idle ∧ s.overlap = false ∧ s.len % 5 ≠ 0 ∧ t = s.raise .length) ∨
    (s.DecodeAdmitted ∧ ∃ out, out.length = 4 * (s.len / 5) ∧
      t = (s.dstWrite 0 out).finish (success (decLen s.len))) ∨
    (s.DecodeAdmitted ∧ ∃ m b out, m < s.len / 5 ∧ out.length = 4 * m ∧ c2d s.cfg.alphabet b = none ∧
      t = ((s.dstWrite 0 out).forgetDst (4 * m)).raise (.invalid b)) := by
  obtain ⟨hidle, hchecked⟩ := whenIdle_next h
  obtain ⟨hdisjoint, ⟨hmisaligned, rfl⟩ | ⟨haligned, -, hcap, hrun⟩⟩ := checked_next hchecked
  · exact .inl ⟨hidle, hdisjoint, hmisaligned, rfl⟩
  · have hadm : s.DecodeAdmitted := ⟨hidle, haligned, hcap, hdisjoint⟩
    obtain ⟨out, hout, rfl⟩ | ⟨m, v, i, b, out, hm, hout, hb, rfl⟩ := drive_decode_next (s.len / 5) rfl rfl hrun
    · exact .inr (.inl ⟨hadm, out, hout, rfl⟩)
    · refine .inr (.inr ⟨hadm, m, b, out, hm, hout, hb, ?_⟩)
      rw [State.begin_k, Nat.zero_add]
      rfl

end Sys2Proof.Machine

namespace Sys2Proof.Proofs

open Sys2Proof Sys2Proof.Machine

/-- Settles O25: the text is five valid bytes a block, and by induction over the blocks DECODE gives back the bytes of each,
because UNPACK undoes PACK, ACC undoes DIGITS and C2D undoes A2C. -/
theorem binaryRoundTrip : Obligations.BinaryRoundTrip := by
  unfold Obligations.BinaryRoundTrip
  intro al hwf bs haligned
  have hdistinct := Alphabet.wf_distinct hwf
  have hblocks : bs.length = 4 * (bs.length / 4) := by omega
  have htext := encodeBuffer_length al bs (bs.length / 4) hblocks
  exact ⟨by omega, by omega, encodeBuffer_allValid hdistinct bs, decodeBuffer_encodeBuffer hdistinct _ hblocks⟩

/-- Settles O47: of all that an operation can answer, only the end of the whole run has ERR = NONE, and it writes the length
function of LEN into N. -/
theorem successfulSizesFollowTheLengthFunctions : Obligations.SuccessfulSizesFollowTheLengthFunctions := by
  unfold Obligations.SuccessfulSizesFollowTheLengthFunctions
  refine ⟨fun s t h herr => ?encode, fun s t h herr => ?decode, fun s t h => ?enclen, fun s t h => ?declen⟩
  case encode =>
    obtain ⟨-, -, -, rfl⟩ | ⟨⟨-, haligned, -⟩, out, -, rfl⟩ := exec_encode_next h
    · simp [Err.code] at herr
    · exact ⟨State.regN_finish_success _ _, by omega⟩
  case decode =>
    obtain ⟨-, -, -, rfl⟩ | ⟨-, out, -, rfl⟩ | ⟨-, m, b, out, -, -, -, rfl⟩ := exec_decode_next h
    · simp [Err.code] at herr
    · exact State.regN_finish_success _ _
    · simp [Err.code] at herr
  case enclen =>
    obtain ⟨-, -, rfl⟩ := exec_enclen_next h
    exact State.regN_finish_success _ _
  case declen =>
    obtain ⟨-, rfl⟩ := exec_declen_next h
    exact State.regN_finish_success _ _

end Sys2Proof.Proofs
end

section
/-! PROOFS. The two errors (spec/60_exceptions.md R101, R102): which result each operation can end with, where the source of
DECODE stops being valid, and what DECODE answers there. -/

namespace Sys2Proof.Machine

/-- LEN is no whole number of the operation's blocks (R101). -/
abbrev State.MisalignedFor (s : State) (i : Instr) : Prop :=
  (i = .encode ∧ s.len % 4 ≠ 0) ∨ (i = .decode ∧ s.len % 5 ≠ 0)

/-- The first `n` bytes of SRC are filled and valid. -/
abbrev State.ValidTo (s : State) (n : Nat) : Prop :=
  ∀ j, j < n → ((s.srcByte j).bind (c2d s.cfg.alphabet)).isSome = true

theorem State.regErr_of_result {s : State} {r : Result} (h : s.result = some r) : s.regErr = some r.err.code := by
  rw [State.regErr, h, Option.map_some]

theorem State.regEbyte_of_result {s : State} {r : Result} (h : s.result = some r) : s.regEbyte = r.err.payload := by
  rw [State.regEbyte, h, Option.bind_some]

theorem exec_encode_of_misaligned {s : State} (hidle : s.activity = .idle) (hdisjoint : s.overlap = false)
    (h : s.len % 4 ≠ 0) : exec .encode s = .next (s.raise .length) :=
  (whenIdle_idle _ hidle).trans (checked_misaligned _ _ _ hdisjoint h)

theorem exec_decode_of_misaligned {s : State} (hidle : s.activity = .idle) (hdisjoint : s.overlap = false)
    (h : s.len % 5 ≠ 0) : exec .decode s = .next (s.raise .length) :=
  (whenIdle_idle _ hidle).trans (checked_misaligned _ _ _ hdisjoint h)

/-- Every result an operation can end with. -/
theorem exec_result_cases {i : Instr} {s t : State} (h : exec i s = .next t) :
    (¬ s.MisalignedFor i ∧ ∃ n, t.result = some (success n)) ∨
    (s.MisalignedFor i ∧ t.result = some ⟨0, .length⟩) ∨
    (¬ s.MisalignedFor i ∧ i = .decode ∧ s.DecodeAdmitted ∧ ∃ b, t.result = some ⟨0, .invalid b⟩) := by
  cases i with
  | enclen =>
    obtain ⟨-, -, rfl⟩ := exec_enclen_next h
    exact .inl ⟨by simp, _, rfl⟩
  | declen =>
    obtain ⟨-, rfl⟩ := exec_declen_next h
    exact .inl ⟨by simp, _, rfl⟩
  | encode =>
    obtain ⟨-, -, hmisaligned, rfl⟩ | ⟨⟨-, haligned, -⟩, out, -, rfl⟩ := exec_encode_next h
    · exact .inr (.inl ⟨.inl ⟨rfl, hmisaligned⟩, rfl⟩)
    · exact .inl ⟨by simp [haligned], _, rfl⟩
  | decode =>
    obtain ⟨-, -, hmisaligned, rfl⟩ | ⟨⟨-, haligned, -⟩, out, -, rfl⟩ | ⟨hadm, m, b, out, -, -, -, rfl⟩ :=
      exec_decode_next h
    · exact .inr (.inl ⟨.inr ⟨rfl, hmisaligned⟩, rfl⟩)
    · exact .inl ⟨by simp [haligned], _, rfl⟩
    · have ⟨_, haligned, _⟩ := hadm
      exact .inr (.inr ⟨by simp [haligned], rfl, hadm, b, rfl⟩)

/-- R101: Length Mismatch is what a misaligned LEN ends with, and nothing else does. -/
theorem exec_regErr_length_iff {i : Instr} {s t : State} (h : exec i s = .next t) :
    t.regErr = some 1 ↔ s.MisalignedFor i := by
  obtain ⟨haligned, n, hres⟩ | ⟨hmisaligned, hres⟩ | ⟨haligned, -, -, b, hres⟩ := exec_result_cases h
  · simp [State.regErr_of_result hres, success, Err.code, haligned]
  · simp [State.regErr_of_result hres, Err.code, hmisaligned]
  · simp [State.regErr_of_result hres, Err.code, haligned]

/-- R107: Length Mismatch records nothing but itself. -/
theorem exec_result_of_regErr_length {i : Instr} {s t : State} (h : exec i s = .next t) (herr : t.regErr = some 1) :
    t.result = some ⟨0, .length⟩ := by
  have hmisaligned := (exec_regErr_length_iff h).1 herr
  obtain ⟨haligned, -⟩ | ⟨-, hres⟩ | ⟨haligned, -⟩ := exec_result_cases h
  · exact absurd hmisaligned haligned
  · exact hres
  · exact absurd hmisaligned haligned

/-- R102: Invalid Symbol is DECODE's, past its checks, and records the byte alone. -/
theorem exec_regErr_invalid {i : Instr} {s t : State} (h : exec i s = .next t) (herr : t.regErr = some 2) :
    i = .decode ∧ s.DecodeAdmitted ∧ ∃ b, t.result = some ⟨0, .invalid b⟩ := by
  obtain ⟨-, n, hres⟩ | ⟨-, hres⟩ | ⟨-, hdecode⟩ := exec_result_cases h
  · simp [State.regErr_of_result hres, success, Err.code] at herr
  · simp [State.regErr_of_result hres, Err.code] at herr
  · exact hdecode

/-- What a valid stretch of SRC holds, as a list. -/
theorem State.ValidTo.exists_list {s : State} {n : Nat} (h : s.ValidTo n) :
    ∃ cs : List Byte, cs.length = n ∧ (∀ j, j < n → s.srcByte j = cs[j]?) ∧ AllValid s.cfg.alphabet cs := by
  have hbyte : ∀ j : Fin n, ∃ c, s.srcByte j = some c ∧ (c2d s.cfg.alphabet c).isSome = true := fun j => by
    obtain ⟨d, hd⟩ := Option.isSome_iff_exists.1 (h j j.isLt)
    obtain ⟨c, hc, hcd⟩ := Option.bind_eq_some_iff.1 hd
    exact ⟨c, hc, by rw [hcd, Option.isSome_some]⟩
  choose byteAt hsrc hvalid using hbyte
  refine ⟨List.ofFn byteAt, List.length_ofFn, fun j hj => ?_, fun c hc => ?_⟩
  · rw [List.getElem?_ofFn, dif_pos hj, hsrc ⟨j, hj⟩]
  · obtain ⟨j, rfl⟩ := List.mem_ofFn.1 hc
    exact hvalid j

/-- A valid stretch of SRC as whole blocks and what is left of the next one. -/
theorem State.ValidTo.exists_blocks {s : State} {n : Nat} (h : s.ValidTo n) :
    ∃ cs tail : List Byte, cs.length = 5 * (n / 5) ∧ tail.length = n % 5 ∧
      (∀ j, j < cs.length → s.srcByte j = cs[j]?) ∧
      (∀ j, j < tail.length → s.srcByte (5 * (n / 5) + j) = tail[j]?) ∧ AllValid s.cfg.alphabet (cs ++ tail) := by
  obtain ⟨cs, hlen, hsrc, hvalid⟩ := h.exists_list
  have hblocks : (cs.take (5 * (n / 5))).length = 5 * (n / 5) := by rw [List.length_take]; omega
  refine ⟨cs.take (5 * (n / 5)), cs.drop (5 * (n / 5)), hblocks, by rw [List.length_drop]; omega, fun j hj => ?_,
    fun j hj => ?_, by rwa [List.take_append_drop]⟩
  · rw [List.getElem?_take_of_lt (by omega), hsrc j (by omega)]
  · rw [List.length_drop] at hj
    rw [List.getElem?_drop, hsrc _ (by omega)]

/-- SRC is valid throughout, or it has a first byte that nobody filled or that is invalid. -/
theorem State.source_cases (s : State) :
    s.ValidTo s.len ∨ (∃ p, p < s.len ∧ s.ValidTo p ∧ s.srcByte p = none) ∨ ∃ p b, s.FirstInvalid p b := by
  by_cases hall : s.ValidTo s.len
  · exact .inl hall
  have hbad : ∃ p, p < s.len ∧ ¬ ((s.srcByte p).bind (c2d s.cfg.alphabet)).isSome = true := by
    simpa only [State.ValidTo, not_forall, exists_prop] using hall
  classical
  obtain ⟨hp, hp_bad⟩ := Nat.find_spec hbad
  have hbefore : s.ValidTo (Nat.find hbad) := fun j hj => by
    by_contra hj_bad
    exact Nat.find_min hbad hj ⟨hj.trans hp, hj_bad⟩
  cases hbyte : s.srcByte (Nat.find hbad) with
  | none => exact .inr (.inl ⟨_, hp, hbefore, hbyte⟩)
  | some b =>
    rw [hbyte, Option.bind_some, Option.not_isSome_iff_eq_none] at hp_bad
    exact .inr (.inr ⟨_, b, hp, hbyte, hp_bad, hbefore⟩)

/-- Up to the block of byte `p`, a DECODE that passed its checks has written no byte of SRC. -/
theorem State.DecodeAdmitted.source_apart {s : State} (h : s.DecodeAdmitted) {p x y : Nat} (hp : p < s.len)
    (hx : x ≤ p) (hy : y < 4 * (p / 5)) : s.srcBase + x ≠ s.dstBase + y := by
  obtain ⟨-, -, hcap, hdisjoint⟩ := h
  rw [decLen] at hcap
  exact disjoint_of_overlap hdisjoint (by omega) (by omega)

theorem resumeDecode_begin (s : State) {p : Nat} (hp : p < s.len) :
    resumeDecode s.begin = drive decodeStep (p / 5 + (s.len / 5 - p / 5 + 1)) s.begin := by
  rw [resumeDecode, State.begin_len, State.begin_k]
  congr 1
  omega

/-- R90: a DECODE that passed its checks ends at the first invalid byte of SRC, with the whole blocks before it free. -/
theorem exec_decode_of_firstInvalid {s : State} {p : Nat} {b : Byte} (h : s.DecodeAdmitted) (hp : s.FirstInvalid p b) :
    ∃ out, out.length = 4 * (p / 5) ∧
      exec .decode s = .next (((s.dstWrite 0 out).forgetDst (4 * (p / 5))).raise (.invalid b)) := by
  obtain ⟨hplen, hbyte, hb, hbefore⟩ := hp
  have ⟨_, haligned, _⟩ := h
  obtain ⟨cs, tail, hcs, htail, hsrc, hsrc', hvalid⟩ := State.ValidTo.exists_blocks hbefore
  obtain ⟨v, i, out, hout, hrun⟩ := drive_decode_invalid (p / 5) (s.len / 5 - p / 5) s.begin cs tail b rfl
    (by simp only [State.begin_k, State.begin_len]; omega) hcs (by omega)
    (fun j hj => by simpa using hsrc j hj)
    (fun j hj => by
      simp only [State.begin_k, State.begin_srcByte, Nat.mul_zero, Nat.zero_add]
      obtain hj | rfl : j < tail.length ∨ j = tail.length := by omega
      · rw [List.getElem?_append_left hj, hsrc' j hj]
      · rw [List.getElem?_concat_length, htail, Nat.div_add_mod, hbyte])
    hvalid hb
    (fun x y hx hy => h.source_apart hplen (by omega) hy)
  refine ⟨out, hout, ?_⟩
  rw [exec_decode_of_admitted h, resumeDecode_begin s hplen, hrun, State.begin_k, Nat.zero_add]
  rfl

/-- R35: a DECODE that passed its checks stops with a fault at a byte that nobody filled, when every byte before it is valid. -/
theorem exec_decode_of_absent {s : State} {p : Nat} (h : s.DecodeAdmitted) (hp : p < s.len) (hbefore : s.ValidTo p)
    (habsent : s.srcByte p = none) : exec .decode s = .fault .sourceByteAbsent := by
  have ⟨_, haligned, _⟩ := h
  obtain ⟨cs, tail, hcs, htail, hsrc, hsrc', hvalid⟩ := hbefore.exists_blocks
  rw [exec_decode_of_admitted h, resumeDecode_begin s hp]
  refine drive_decode_absent (p / 5) (s.len / 5 - p / 5) s.begin cs tail rfl ?_ hcs (by omega) ?_ ?_ ?_ hvalid ?_
  · simp only [State.begin_k, State.begin_len]
    omega
  · simpa using hsrc
  · simpa using hsrc'
  · simpa [htail, Nat.div_add_mod] using habsent
  · exact fun x y hx hy => h.source_apart hp (by omega) hy

/-- R89: a DECODE that passed its checks on a source valid throughout ends without an error. -/
theorem exec_decode_of_validTo {s : State} (h : s.DecodeAdmitted) (hvalid : s.ValidTo s.len) :
    ∃ bs, exec .decode s = .next ((s.dstWrite 0 bs).finish (success (decLen s.len))) := by
  have ⟨_, haligned, _⟩ := h
  obtain ⟨cs, hlen, hsrc, hcs⟩ := hvalid.exists_list
  obtain ⟨bs, hbs⟩ := decodeBuffer_valid (cs.length / 5) (by omega) hcs
  exact ⟨bs, exec_decode_of_srcHolds h ⟨hlen.symm, hlen ▸ hsrc⟩ hbs⟩

/-- R102: when a DECODE ends with Invalid Symbol, SRC has a first invalid byte. -/
theorem exists_firstInvalid_of_regErr {s t : State} (h : s.DecodeAdmitted) (hnext : exec .decode s = .next t)
    (herr : t.regErr = some 2) : ∃ p b, s.FirstInvalid p b := by
  obtain hvalid | ⟨p, hp, hbefore, habsent⟩ | hfirst := s.source_cases
  · obtain ⟨bs, hrun⟩ := exec_decode_of_validTo h hvalid
    obtain rfl := Host.Outcome.next.inj (hrun.symm.trans hnext)
    simp at herr
  · rw [exec_decode_of_absent h hp hbefore habsent] at hnext
    cases hnext
  · exact hfirst

end Sys2Proof.Machine

namespace Sys2Proof.Proofs

open Sys2Proof Sys2Proof.Machine

/-- Settles O45: of all the results an operation can end with, only that of a misaligned LEN has code 1, and there is one such
result. -/
theorem lengthMismatchIsRaisedByMisalignmentOnly : Obligations.LengthMismatchIsRaisedByMisalignmentOnly := by
  unfold Obligations.LengthMismatchIsRaisedByMisalignmentOnly
  refine ⟨fun _ _ _ h => exec_regErr_length_iff h, fun s hidle hdisjoint => ⟨fun hlen => ?encode, fun hlen => ?decode⟩,
    fun i j s s' t t' h h' herr herr' => ?sameResult⟩
  case encode => exact ⟨_, exec_encode_of_misaligned hidle hdisjoint hlen, State.regErr_raise s .length⟩
  case decode => exact ⟨_, exec_decode_of_misaligned hidle hdisjoint hlen, State.regErr_raise s .length⟩
  case sameResult =>
    have hres := exec_result_of_regErr_length h herr
    have hres' := exec_result_of_regErr_length h' herr'
    exact ⟨State.regEbyte_of_result hres, hres.trans hres'.symm⟩

/-- Settles O46: Invalid Symbol comes from a DECODE past its checks. Its source is not valid throughout and has no unfilled byte
before the first invalid one, since the run would end otherwise; so the run ends at that byte. -/
theorem invalidSymbolIsRaisedByDecodeOnly : Obligations.InvalidSymbolIsRaisedByDecodeOnly := by
  unfold Obligations.InvalidSymbolIsRaisedByDecodeOnly
  refine ⟨fun i s t h herr => ?raised, fun s p b hadm hfirst => ?raises, fun i j s s' t t' h h' herr herr' hbyte => ?sameResult⟩
  case raised =>
    obtain ⟨rfl, hadm, -⟩ := exec_regErr_invalid h herr
    obtain ⟨p, b, hfirst⟩ := exists_firstInvalid_of_regErr hadm h herr
    obtain ⟨out, -, hrun⟩ := exec_decode_of_firstInvalid hadm hfirst
    obtain rfl := Host.Outcome.next.inj (hrun.symm.trans h)
    have ⟨_, haligned, _⟩ := hadm
    have ⟨_, _, hinvalid, _⟩ := hfirst
    exact ⟨rfl, haligned, p, b, hfirst, rfl, hinvalid⟩
  case raises =>
    obtain ⟨out, -, hrun⟩ := exec_decode_of_firstInvalid hadm hfirst
    exact ⟨_, hrun, rfl, rfl⟩
  case sameResult =>
    obtain ⟨-, -, b, hres⟩ := exec_regErr_invalid h herr
    obtain ⟨-, -, b', hres'⟩ := exec_regErr_invalid h' herr'
    rw [State.regEbyte_of_result hres, State.regEbyte_of_result hres'] at hbyte
    obtain rfl : b = b' := Option.some.inj hbyte
    exact hres.trans hres'.symm

end Sys2Proof.Proofs
end

section
/-! PROOFS. The base-85 digits of a value (spec/30_encoding.md R46, R47; spec/45_common_semantics.md R130): the weighted sum
written out, and which digits a value has. -/

namespace Sys2Proof.Machine

theorem digitSum_five (d0 d1 d2 d3 d4 : Digit) :
    digitSum [d0, d1, d2, d3, d4] = d0.val * 85 ^ 4 + d1.val * 85 ^ 3 + d2.val * 85 ^ 2 + d3.val * 85 + d4.val := by
  simp only [digitSum, List.foldl_cons, List.foldl_nil]
  ring

theorem digitSum_four (d0 d1 d2 d3 : Digit) :
    digitSum [d0, d1, d2, d3] = d0.val * 85 ^ 3 + d1.val * 85 ^ 2 + d2.val * 85 + d3.val := by
  simp only [digitSum, List.foldl_cons, List.foldl_nil]
  ring

/-- The weighted sum determines its five digits, by repeated division by 85. -/
theorem eq_of_digitSum_eq {d0 d1 d2 d3 d4 e0 e1 e2 e3 e4 : Digit}
    (h : digitSum [d0, d1, d2, d3, d4] = digitSum [e0, e1, e2, e3, e4]) :
    [d0, d1, d2, d3, d4] = [e0, e1, e2, e3, e4] := by
  simp only [digitSum_five] at h
  simp only [List.cons.injEq, and_true, Fin.ext_iff]
  omega

/-- R130: DIGITS undoes ACC exactly on the digits whose sum has not been reduced. -/
theorem digits_acc_iff (d0 d1 d2 d3 d4 : Digit) :
    digits (acc [d0, d1, d2, d3, d4]) = [d0, d1, d2, d3, d4] ↔ digitSum [d0, d1, d2, d3, d4] < 2 ^ 32 := by
  constructor
  · intro h
    rw [← h, digitSum_digits]
    exact BitVec.isLt _
  · intro h
    have hsum := digitSum_digits (acc [d0, d1, d2, d3, d4])
    rw [acc_toNat, Nat.mod_eq_of_lt h, digits_eq] at hsum
    exact eq_of_digitSum_eq hsum

theorem digitSum_five_lt (d0 d1 d2 d3 d4 : Digit) : digitSum [d0, d1, d2, d3, d4] < 2 * 2 ^ 32 := by
  rw [digitSum_five]
  omega

/-- R85: past the wrap ACC is the sum less `2^32`, because no sum reaches `2 * 2^32`. -/
theorem acc_of_overflow {d0 d1 d2 d3 d4 : Digit} (h : 2 ^ 32 ≤ digitSum [d0, d1, d2, d3, d4]) :
    acc [d0, d1, d2, d3, d4] = BitVec.ofNat 32 (digitSum [d0, d1, d2, d3, d4] - 2 ^ 32) := by
  have hlt := digitSum_five_lt d0 d1 d2 d3 d4
  apply BitVec.eq_of_toNat_eq
  rw [acc_toNat, BitVec.toNat_ofNat]
  omega

/-- R85: the digits of `2^32 - 1` are 82, 23, 54, 12, 0, so overflow is the dictionary order past them. -/
theorem overflow_iff_lex (d0 d1 d2 d3 d4 : Digit) :
    2 ^ 32 ≤ digitSum [d0, d1, d2, d3, d4] ↔
      ([82, 23, 54, 12, 0] : List Nat) < [d0.val, d1.val, d2.val, d3.val, d4.val] := by
  simp only [digitSum_five, List.cons_lt_cons_iff, List.lt_irrefl, and_false, or_false]
  omega

end Sys2Proof.Machine

namespace Sys2Proof.Proofs

open Sys2Proof Sys2Proof.Machine

/-- Settles O18: each digit is a quotient reduced modulo 85, and a value below `2^32` leaves the first quotient at most 82. -/
theorem digitsDetermineTheValue : Obligations.DigitsDetermineTheValue := by
  unfold Obligations.DigitsDetermineTheValue
  refine ⟨fun v => ?_, by decide⟩
  have hv := v.isLt
  have hsum : digitSum (digits v) = v.toNat := digitSum_digits v
  have hfirst := digitAt_zero_le v
  have h0 : (digitAt v 0).val = v.toNat / 52200625 % 85 := digitAt_val v 0
  have h1 : (digitAt v 1).val = v.toNat / 614125 % 85 := digitAt_val v 1
  have h2 : (digitAt v 2).val = v.toNat / 7225 % 85 := digitAt_val v 2
  have h3 : (digitAt v 3).val = v.toNat / 85 % 85 := by simpa using digitAt_val v 3
  have h4 : (digitAt v 4).val = v.toNat % 85 := by simpa using digitAt_val v 4
  rw [digits_eq, digitSum_five] at hsum
  refine ⟨_, _, _, _, _, digits_eq v, h0, h1, h2, h3, h4, hsum.symm, ?_, hfirst, ?_, ?_, ?_⟩ <;> omega

/-- Settles O19: ACC is the weighted sum modulo `2^32`, and four digits do not reach `2^32`. -/
theorem accReducesTheWeightedSum : Obligations.AccReducesTheWeightedSum := by
  unfold Obligations.AccReducesTheWeightedSum
  refine ⟨fun d0 d1 d2 d3 d4 => ⟨?five, ?four⟩, acc_digits, by decide⟩
  case five => rw [acc_toNat, digitSum_five]
  case four =>
    rw [acc_toNat, digitSum_four]
    omega

/-- Settles O20: the digits of a value have the value as their sum, and the sum determines them. -/
theorem digitsInvertAccExactlyBelowTheWrap : Obligations.DigitsInvertAccExactlyBelowTheWrap := by
  unfold Obligations.DigitsInvertAccExactlyBelowTheWrap
  intro d0 d1 d2 d3 d4
  rw [digits_acc_iff, digitSum_five]

/-- Settles O21: an overflow sum wraps once, and DECBLK of the characters of digits unpacks their ACC. -/
theorem overflowBlocksWrapOnce : Obligations.OverflowBlocksWrapOnce := by
  unfold Obligations.OverflowBlocksWrapOnce
  refine ⟨fun al d0 d1 d2 d3 d4 hwf => ⟨digitSum_five_lt d0 d1 d2 d3 d4, overflow_iff_lex d0 d1 d2 d3 d4, fun hover => ?_⟩,
    by decide⟩
  rw [← acc_of_overflow hover]
  exact decblk_of_ok (decAccumulate_map_a2c (Alphabet.wf_distinct hwf) [d0, d1, d2, d3, d4] 0)

end Sys2Proof.Proofs
end

section
/-! PROOFS. Canonical texts (spec/44_roundtrip_laws.md R95, R96, R98) and concatenation at block boundaries (R99). -/

namespace Sys2Proof.Machine

/-- R96: ENCODE writes canonical texts only, because the digits of a value sum to the value. -/
theorem canonicalText_encodeBuffer {al : Alphabet} (h : al.distinct = true) (bs : List Byte) :
    CanonicalText al (encodeBuffer al bs) := by
  induction bs using encodeBuffer.induct with
  | case1 b0 b1 b2 b3 rest ih =>
    have hlt : digitSum (digits (pack b0 b1 b2 b3)) < 2 ^ 32 := by
      rw [digitSum_digits]
      exact BitVec.isLt _
    exact ⟨⟨_, _, _, _, _, c2d_a2c h _, c2d_a2c h _, c2d_a2c h _, c2d_a2c h _, c2d_a2c h _, hlt⟩, ih⟩
  | case2 bs hshort =>
    rw [encodeBuffer]
    · exact trivial
    · exact hshort

/-- Five characters whose digit sum has not been reduced are ENCBLK of the four bytes of their ACC. -/
theorem exists_encblk_of_digitSum_lt {al : Alphabet} {c0 c1 c2 c3 c4 : Byte} {d0 d1 d2 d3 d4 : Digit}
    (h0 : c2d al c0 = some d0) (h1 : c2d al c1 = some d1) (h2 : c2d al c2 = some d2) (h3 : c2d al c3 = some d3)
    (h4 : c2d al c4 = some d4) (hlt : digitSum [d0, d1, d2, d3, d4] < 2 ^ 32) :
    ∃ b0 b1 b2 b3, encblk al b0 b1 b2 b3 = [c0, c1, c2, c3, c4] := by
  obtain ⟨b0, b1, b2, b3, hpack⟩ : ∃ b0 b1 b2 b3, pack b0 b1 b2 b3 = acc [d0, d1, d2, d3, d4] :=
    ⟨_, _, _, _, pack_unpack _⟩
  refine ⟨b0, b1, b2, b3, ?_⟩
  rw [encblk, hpack, (digits_acc_iff d0 d1 d2 d3 d4).2 hlt]
  simp only [List.map_cons, List.map_nil, a2c_of_c2d h0, a2c_of_c2d h1, a2c_of_c2d h2, a2c_of_c2d h3, a2c_of_c2d h4]

/-- R96: every canonical text is an output of ENCODE. -/
theorem exists_encodeBuffer_of_canonicalText {al : Alphabet} {cs : List Byte} (h : CanonicalText al cs) :
    ∃ bs : List Byte, bs.length % 4 = 0 ∧ encodeBuffer al bs = cs := by
  induction cs using CanonicalText.induct with
  | case1 => exact ⟨[], rfl, rfl⟩
  | case2 c0 c1 c2 c3 c4 rest ih =>
    obtain ⟨⟨d0, d1, d2, d3, d4, h0, h1, h2, h3, h4, hlt⟩, hrest⟩ := h
    obtain ⟨b0, b1, b2, b3, hblock⟩ := exists_encblk_of_digitSum_lt h0 h1 h2 h3 h4 hlt
    obtain ⟨bs, haligned, htext⟩ := ih hrest
    refine ⟨b0 :: b1 :: b2 :: b3 :: bs, by simp only [List.length_cons]; omega, ?_⟩
    rw [encodeBuffer, hblock, htext]
    rfl
  | case3 cs hnil hshort =>
    rw [CanonicalText] at h
    · exact h.elim
    · exact hnil
    · exact hshort

theorem canonicalText_iff {al : Alphabet} (h : al.distinct = true) {cs : List Byte} :
    CanonicalText al cs ↔ ∃ bs : List Byte, bs.length % 4 = 0 ∧ encodeBuffer al bs = cs := by
  constructor
  · exact exists_encodeBuffer_of_canonicalText
  · rintro ⟨bs, -, rfl⟩
    exact canonicalText_encodeBuffer h bs

/-- R94 for every buffer of whole blocks. -/
theorem decodeBuffer_encodeBuffer_of_aligned {al : Alphabet} (h : al.distinct = true) {bs : List Byte}
    (haligned : bs.length % 4 = 0) : decodeBuffer al (encodeBuffer al bs) = .ok bs :=
  decodeBuffer_encodeBuffer h (bs.length / 4) (by omega)

/-- R96: ENCODE of what a text decodes to is the text exactly when the text is canonical. -/
theorem encodeBuffer_eq_iff_canonicalText {al : Alphabet} (h : al.distinct = true) {cs bs : List Byte}
    (hbs : decodeBuffer al cs = .ok bs) : encodeBuffer al bs = cs ↔ CanonicalText al cs := by
  constructor
  · rintro rfl
    exact canonicalText_encodeBuffer h bs
  · intro hcanonical
    obtain ⟨bs', haligned, rfl⟩ := exists_encodeBuffer_of_canonicalText hcanonical
    rw [decodeBuffer_encodeBuffer_of_aligned h haligned] at hbs
    rw [Except.ok.inj hbs]

/-- R99 for ENCODE, by induction over the blocks of the first buffer. -/
theorem encodeBuffer_append (al : Alphabet) (n : Nat) {s1 : List Byte} (s2 : List Byte) (hlen : s1.length = 4 * n) :
    encodeBuffer al (s1 ++ s2) = encodeBuffer al s1 ++ encodeBuffer al s2 := by
  induction n generalizing s1 with
  | zero => rw [List.eq_nil_of_length_eq_zero hlen]; rfl
  | succ n ih =>
    match s1, hlen with
    | b0 :: b1 :: b2 :: b3 :: rest, hlen =>
      simp only [List.length_cons] at hlen
      simp only [List.cons_append, encodeBuffer, ih (s1 := rest) (by omega), List.append_assoc]

/-- What a text decodes to when a text of whole blocks stands before it. -/
def prependDecoded : Except Byte (List Byte) → Except Byte (List Byte) → Except Byte (List Byte)
  | .error b, _ => .error b
  | .ok _, .error b => .error b
  | .ok b1, .ok b2 => .ok (b1 ++ b2)

/-- R99 for DECODE: the first text's bytes or first invalid byte come first. -/
theorem decodeBuffer_append (al : Alphabet) (n : Nat) {t1 : List Byte} (t2 : List Byte) (hlen : t1.length = 5 * n) :
    decodeBuffer al (t1 ++ t2) = prependDecoded (decodeBuffer al t1) (decodeBuffer al t2) := by
  induction n generalizing t1 with
  | zero =>
    rw [List.eq_nil_of_length_eq_zero hlen]
    cases ht2 : decodeBuffer al t2 <;> simp [decodeBuffer, prependDecoded, ht2]
  | succ n ih =>
    match t1, hlen with
    | c0 :: c1 :: c2 :: c3 :: c4 :: rest, hlen =>
      simp only [List.length_cons] at hlen
      simp only [List.cons_append, decodeBuffer, ih (t1 := rest) (by omega)]
      cases decblk al c0 c1 c2 c3 c4 with
      | error b => rfl
      | ok bs =>
        cases decodeBuffer al rest with
        | error b => rfl
        | ok more => cases decodeBuffer al t2 <;> simp [prependDecoded]

end Sys2Proof.Machine

namespace Sys2Proof.Proofs

open Sys2Proof Sys2Proof.Machine

/-- Settles O26: canonical texts are the outputs of ENCODE, by induction over the blocks each way, and DECODE gives back what
ENCODE made them from. -/
theorem textRoundTripExactlyForCanonicalText : Obligations.TextRoundTripExactlyForCanonicalText := by
  unfold Obligations.TextRoundTripExactlyForCanonicalText
  intro al hwf
  have hdistinct := Alphabet.wf_distinct hwf
  refine ⟨fun cs haligned hvalid => ?_, fun cs => canonicalText_iff hdistinct⟩
  obtain ⟨bs, hbs⟩ := decodeBuffer_valid (cs.length / 5) (by omega) hvalid
  exact ⟨bs, hbs, encodeBuffer_eq_iff_canonicalText hdistinct hbs⟩

/-- Settles O24: the loop of DECBLK over the text of a block gives back its packed value. -/
theorem blockRoundTrip : Obligations.BlockRoundTrip := by
  unfold Obligations.BlockRoundTrip
  intro al hwf b0 b1 b2 b3
  refine ⟨_, _, _, _, _, rfl, ?_⟩
  rw [← unpack_pack b0 b1 b2 b3]
  exact decblk_of_ok (decAccumulate_encblk (Alphabet.wf_distinct hwf) b0 b1 b2 b3)

/-- Settles O27: both whole-buffer functions go block by block, so a first buffer of whole blocks is done before the second
one begins. -/
theorem concatenationAtBlockBoundaries : Obligations.ConcatenationAtBlockBoundaries := by
  unfold Obligations.ConcatenationAtBlockBoundaries
  intro al
  have happend : ∀ t1 t2 : List Byte, t1.length % 5 = 0 →
      decodeBuffer al (t1 ++ t2) = prependDecoded (decodeBuffer al t1) (decodeBuffer al t2) := fun t1 t2 haligned =>
    decodeBuffer_append al (t1.length / 5) t2 (by omega)
  refine ⟨fun s1 s2 haligned => ?encode, fun t1 t2 b1 haligned h1 => ⟨fun b2 h2 => ?bothDecode, fun b h2 => ?secondFails⟩,
    fun t1 t2 b haligned h1 => ?firstFails⟩
  case encode => exact encodeBuffer_append al (s1.length / 4) s2 (by omega)
  case bothDecode => rw [happend t1 t2 haligned, h1, h2, prependDecoded]
  case secondFails => rw [happend t1 t2 haligned, h1, h2, prependDecoded]
  case firstFails => rw [happend t1 t2 haligned, h1, prependDecoded]

/-- Settles O28: DECODE undoes ENCODE, so ENCODE is injective and DECODE is injective on ENCODE's outputs; the pair of R92 (d)
is evaluated. -/
theorem encodingIsInjective : Obligations.EncodingIsInjective := by
  unfold Obligations.EncodingIsInjective
  refine ⟨fun al hwf => ⟨fun s1 s2 h1 h2 heq => ?encode, fun t1 t2 h1 h2 heq => ?decode⟩, by decide⟩
  case encode =>
    have hdistinct := Alphabet.wf_distinct hwf
    have hdecoded := congrArg (decodeBuffer al) heq
    rw [decodeBuffer_encodeBuffer_of_aligned hdistinct h1, decodeBuffer_encodeBuffer_of_aligned hdistinct h2] at hdecoded
    exact Except.ok.inj hdecoded
  case decode =>
    have hdistinct := Alphabet.wf_distinct hwf
    obtain ⟨s1, haligned1, rfl⟩ := exists_encodeBuffer_of_canonicalText h1
    obtain ⟨s2, haligned2, rfl⟩ := exists_encodeBuffer_of_canonicalText h2
    rw [decodeBuffer_encodeBuffer_of_aligned hdistinct haligned1,
      decodeBuffer_encodeBuffer_of_aligned hdistinct haligned2] at heq
    rw [Except.ok.inj heq]

end Sys2Proof.Proofs
end

section
/-! PROOFS. Host memory as data (spec/20_memory.md R34), the shared byte of two buffers (spec/60_exceptions.md R109), and the
one form that every end of an operation has (R106, R107, R110): what it writes to DST and what it leaves alone. -/

namespace Sys2Proof.Machine

namespace Memory

theorem read_eq_none_of_lt {m : Memory} {a : Nat} (h : ∀ c ∈ m, a < c.1) : m.read a = none := by
  induction m with
  | nil => rfl
  | cons c m ih =>
    obtain ⟨hc, hm⟩ := List.forall_mem_cons.1 h
    rw [read, if_neg (by omega), ih hm]

theorem read_head (c : Host.Cell) (m : Memory) : read (c :: m) c.1 = some c.2 := if_pos rfl

theorem read_cons_of_ne {c : Host.Cell} {a : Nat} (m : Memory) (h : c.1 ≠ a) : read (c :: m) a = m.read a := if_neg h

/-- A memory in canonical form lists nothing below its first address. -/
theorem head_le_of_read_isSome {c : Host.Cell} {m : Memory} {a : Nat} (h : wf (c :: m))
    (ha : (read (c :: m) a).isSome = true) : c.1 ≤ a := by
  obtain ⟨hc, -⟩ := List.pairwise_cons.1 h
  by_contra hlt
  have hbelow : ∀ x ∈ c :: m, a < x.1 := List.forall_mem_cons.2 ⟨by omega, fun x hx => by have := hc x hx; omega⟩
  rw [read_eq_none_of_lt hbelow] at ha
  cases ha

/-- A memory in canonical form lists its first address once. -/
theorem read_tail_head {c : Host.Cell} {m : Memory} (h : wf (c :: m)) : m.read c.1 = none :=
  read_eq_none_of_lt (List.pairwise_cons.1 h).1

/-- The canonical form is one: what a memory reads as determines it. -/
theorem ext_of_wf {m m' : Memory} (h : m.wf) (h' : m'.wf) (hread : ∀ a, m.read a = m'.read a) : m = m' := by
  induction m generalizing m' with
  | nil =>
    cases m' with
    | nil => rfl
    | cons c' m' =>
      have hc := hread c'.1
      rw [read_head] at hc
      cases hc
  | cons c m ih =>
    cases m' with
    | nil =>
      have hc := hread c.1
      rw [read_head] at hc
      cases hc
    | cons c' m' =>
      have hle : c'.1 ≤ c.1 := head_le_of_read_isSome h' (by rw [← hread, read_head, Option.isSome_some])
      have hge : c.1 ≤ c'.1 := head_le_of_read_isSome h (by rw [hread, read_head, Option.isSome_some])
      have haddr : c.1 = c'.1 := Nat.le_antisymm hge hle
      have hbyte : c.2 = c'.2 := by
        have hc := hread c.1
        rw [read_head, haddr, read_head] at hc
        exact Option.some.inj hc
      have hrest : m = m' := by
        refine ih (List.pairwise_cons.1 h).2 (List.pairwise_cons.1 h').2 fun a => ?_
        by_cases ha : c.1 = a
        · rw [← ha, read_tail_head h, haddr, read_tail_head h']
        · rw [← read_cons_of_ne m ha, hread, read_cons_of_ne m' (haddr ▸ ha)]
      rw [Prod.ext haddr hbyte, hrest]

end Memory

/-- R109: the check is interval arithmetic, and the greater of the two bases is a shared address. -/
theorem State.overlap_iff (s : State) :
    s.overlap = true ↔ ∃ a, (s.srcBase ≤ a ∧ a < s.srcBase + s.len) ∧ (s.dstBase ≤ a ∧ a < s.dstBase + s.cap) := by
  rw [State.overlap, decide_eq_true_eq]
  constructor
  · intro h
    exact ⟨max s.srcBase s.dstBase, by omega, by omega⟩
  · rintro ⟨a, hsrc, hdst⟩
    omega

theorem freeBytes_length (d n : Nat) : (freeBytes d n).length = n := by
  rw [freeBytes, List.length_map, List.length_range]

theorem freeBytes_getElem? (d : Nat) {j n : Nat} (h : j < n) : (freeBytes d n)[j]? = some (Config.freeByte (d + j)) := by
  rw [freeBytes, List.getElem?_map, List.getElem?_range h, Option.map_some]

/-- The end that every operation comes to: `out` has been written from DST's byte `j` on, the first `n` bytes of DST are free
values, and the result registers hold `r`. -/
def State.ended (s : State) (j : Nat) (out : List Byte) (n : Nat) (r : Result) : State :=
  ((s.dstWrite j out).forgetDst n).finish r

/-- An end of an operation that kept to its destination and to legal results. -/
def State.LegalEnd (s : State) (j : Nat) (out : List Byte) (n : Nat) (r : Result) : Prop :=
  j + out.length ≤ s.cap ∧ n ≤ s.cap ∧ (s.cfg.fits s.len = true → s.cfg.fits s.cap = true → r.wf s.cfg)

section
variable (s : State) (j : Nat) (out : List Byte) (n : Nat) (r : Result)

@[simp] theorem State.ended_activity : (s.ended j out n r).activity = .idle := rfl

theorem State.ended_mem : (s.ended j out n r).mem =
    (s.mem.writeList (s.dstBase + j) out).writeList s.dstBase (freeBytes s.draws n) := rfl

theorem State.sameCommand_ended : SameCommand s (s.ended j out n r) := ⟨rfl, rfl, rfl, rfl, rfl, rfl, rfl⟩

theorem State.atRest_ended : (s.ended j out n r).AtRest := ⟨rfl, rfl, rfl⟩
end

/-- An end reads as before outside every stretch of DST that holds what it wrote. -/
theorem State.sameMemoryBut_ended (s : State) {j n m : Nat} {out : List Byte} (r : Result) (hout : j + out.length ≤ m)
    (hn : n ≤ m) : SameMemoryBut s (s.ended j out n r) s.dstBase m := by
  intro a ha
  rw [State.ended_mem, Memory.read_writeList_outside, Memory.read_writeList_outside]
  · omega
  · rw [freeBytes_length]
    omega

theorem State.ended_mem_wf {s : State} (j : Nat) (out : List Byte) (n : Nat) (r : Result) (h : s.mem.wf) :
    (s.ended j out n r).mem.wf := Memory.writeList_wf _ _ (Memory.writeList_wf _ _ h)

/-- R90: after an end with `n` free bytes each of them is a draw of its own. -/
theorem State.dstByte_ended_of_lt (s : State) (j : Nat) (out : List Byte) {n x : Nat} (r : Result) (hx : x < n) :
    (s.ended j out n r).dstByte x = some (Config.freeByte (s.draws + x)) :=
  (Memory.read_writeList_inside _ s.dstBase x _ (by rwa [freeBytes_length])).trans (freeBytes_getElem? s.draws hx)

/-- R21: an end that keeps to a disjoint DST leaves SRC as it was. -/
theorem State.srcByte_ended {s : State} {j n x : Nat} {out : List Byte} {r : Result} (hdisjoint : s.overlap = false)
    (hlegal : s.LegalEnd j out n r) (hx : x < s.len) : (s.ended j out n r).srcByte x = s.srcByte x := by
  obtain ⟨hout, hn, -⟩ := hlegal
  refine s.sameMemoryBut_ended r hout hn (s.srcBase + x) fun hin => ?_
  exact disjoint_of_overlap hdisjoint hx (y := s.srcBase + x - s.dstBase) (by omega) (by omega)

theorem Result.wf_success {c : Config} {n : Nat} (h : c.fits n = true) : (success n).wf c := ⟨h, trivial⟩

theorem Result.wf_length (c : Config) : Result.wf c ⟨0, .length⟩ := ⟨Config.fits_zero c, rfl⟩

theorem Result.wf_invalid {c : Config} {b : Byte} (h : c2d c.alphabet b = none) : Result.wf c ⟨0, .invalid b⟩ :=
  ⟨Config.fits_zero c, rfl, h⟩

/-- Every operation that answers a next state has come to a legal end. -/
theorem exec_next {i : Instr} {s t : State} (h : exec i s = .next t) :
    ∃ out n r, t = s.ended 0 out n r ∧ s.LegalEnd 0 out n r := by
  cases i with
  | enclen =>
    obtain ⟨-, hfits, rfl⟩ := exec_enclen_next h
    exact ⟨[], 0, _, rfl, Nat.zero_le _, Nat.zero_le _, fun _ _ => Result.wf_success hfits⟩
  | declen =>
    obtain ⟨-, rfl⟩ := exec_declen_next h
    exact ⟨[], 0, _, rfl, Nat.zero_le _, Nat.zero_le _,
      fun hlen _ => Result.wf_success (Config.fits_mono (decLen_le s.len) hlen)⟩
  | encode =>
    obtain ⟨-, -, -, rfl⟩ | ⟨⟨-, -, hfits, hcap, -⟩, out, hout, rfl⟩ := exec_encode_next h
    · exact ⟨[], 0, _, rfl, Nat.zero_le _, Nat.zero_le _, fun _ _ => Result.wf_length s.cfg⟩
    · rw [encLen] at hcap
      exact ⟨out, 0, _, rfl, by omega, Nat.zero_le _, fun _ _ => Result.wf_success hfits⟩
  | decode =>
    obtain ⟨-, -, -, rfl⟩ | ⟨⟨-, -, hcap, -⟩, out, hout, rfl⟩ | ⟨⟨-, -, hcap, -⟩, m, b, out, hm, hout, hb, rfl⟩ :=
      exec_decode_next h
    · exact ⟨[], 0, _, rfl, Nat.zero_le _, Nat.zero_le _, fun _ _ => Result.wf_length s.cfg⟩
    · rw [decLen] at hcap
      exact ⟨out, 0, _, rfl, by omega, Nat.zero_le _,
        fun hlen _ => Result.wf_success (Config.fits_mono (decLen_le s.len) hlen)⟩
    · rw [decLen] at hcap
      exact ⟨out, 4 * m, _, rfl, by omega, by omega, fun _ _ => Result.wf_invalid hb⟩

/-- A running instance that goes on comes to an end too, and to a legal one when its operation had passed its checks. -/
theorem resume_next {s t : State} (hrun : s.activity = .running) (h : resume s = .next t) :
    ∃ j out n r, t = s.ended j out n r ∧ (s.InProgress → s.LegalEnd j out n r) := by
  unfold resume at h
  unfold State.InProgress
  cases hop : s.current with
  | enclen =>
    simp only [hop, enclenStep] at h
    split_ifs at h with hfits
    exact ⟨0, [], 0, _, (Host.Outcome.next.inj h).symm, fun _ =>
      ⟨Nat.zero_le _, Nat.zero_le _, fun _ _ => Result.wf_success hfits⟩⟩
  | declen =>
    simp only [hop, declenStep] at h
    exact ⟨0, [], 0, _, (Host.Outcome.next.inj h).symm, fun _ =>
      ⟨Nat.zero_le _, Nat.zero_le _, fun hlen _ => Result.wf_success (Config.fits_mono (decLen_le s.len) hlen)⟩⟩
  | encode =>
    simp only [hop, resumeEncode] at h
    obtain ⟨out, hout, rfl⟩ := drive_encode_next (s.len / 4 - s.k) hrun rfl h
    refine ⟨5 * s.k, out, 0, success (encLen s.len), rfl, fun ⟨_, hcap, hk⟩ => ⟨?_, Nat.zero_le _, fun _ hfits => ?_⟩⟩
    · rw [encLen] at hcap
      omega
    · exact Result.wf_success (Config.fits_mono hcap hfits)
  | decode =>
    simp only [hop, resumeDecode] at h
    obtain ⟨out, hout, rfl⟩ | ⟨m, v, i, b, out, hm, hout, hb, rfl⟩ := drive_decode_next (s.len / 5 - s.k) hrun rfl h
    · refine ⟨4 * s.k, out, 0, success (decLen s.len), rfl, fun ⟨_, hcap, hk⟩ => ⟨?_, Nat.zero_le _, fun hlen _ => ?_⟩⟩
      · rw [decLen] at hcap
        omega
      · exact Result.wf_success (Config.fits_mono (decLen_le s.len) hlen)
    · refine ⟨4 * s.k, out, 4 * (s.k + m), ⟨0, .invalid b⟩, rfl, fun ⟨_, hcap, hk⟩ => ?_⟩
      rw [decLen] at hcap
      exact ⟨by omega, by omega, fun _ _ => Result.wf_invalid hb⟩

end Sys2Proof.Machine

namespace Sys2Proof.Proofs

open Sys2Proof Sys2Proof.Machine

/-- Settles O59: two memories in canonical form that read the same begin with the same cell, by induction over the first. -/
theorem equalMemoriesAreEqualData : Obligations.EqualMemoriesAreEqualData := by
  unfold Obligations.EqualMemoriesAreEqualData
  intro m m' h h' hread
  exact Memory.ext_of_wf h h' hread

/-- Settles O38: two intervals meet exactly when each begins before the other ends. -/
theorem overlapMeansASharedByte : Obligations.OverlapMeansASharedByte := by
  unfold Obligations.OverlapMeansASharedByte
  exact State.overlap_iff

/-- Settles O60: every operation comes to an end, which leaves V, k, i and the record at rest and depends on host memory in
the result registers, host memory and the counter alone. -/
theorem endedOperationKeepsNothingOfTheBuffers : Obligations.EndedOperationKeepsNothingOfTheBuffers := by
  unfold Obligations.EndedOperationKeepsNothingOfTheBuffers
  refine ⟨fun i s t h => ?atRest, fun i s t t' m h h' => ?sameElse⟩
  case atRest =>
    obtain ⟨out, n, r, rfl, -⟩ := exec_next h
    exact ⟨s.atRest_ended 0 out n r, rfl⟩
  case sameElse =>
    obtain ⟨out, n, r, rfl, -⟩ := exec_next h
    obtain ⟨out', n', r', rfl, -⟩ := exec_next h'
    rfl

end Sys2Proof.Proofs
end

section
/-! PROOFS. Steps (spec/60_exceptions.md R115; spec/70_reset_and_hazards.md R117, R125, R126, R128): all that a move of the
host and a step can do, and the invariant of the machine. -/

namespace Sys2Proof.Machine

/-- What the six writing moves of the host make of a state. The start and the reset write no operand and no byte, so they leave
it as it is here; what they do is `exec` and `State.resetCodec`. -/
def hostWrites (m : HostMove) (s : State) : State :=
  match m with
  | .setOp op => { s with op := op, presented := { s.presented with op := true } }
  | .setLen n => { s with len := n, presented := { s.presented with len := true } }
  | .setCap n => { s with cap := n, presented := { s.presented with cap := true } }
  | .giveSrc base => { s with srcBase := base, presented := { s.presented with src := true } }
  | .giveDst base => { s with dstBase := base, presented := { s.presented with dst := true } }
  | .writeByte a b => { s with mem := s.mem.write a b }
  | .start => s
  | .reset => s

section
variable (m : HostMove) (s : State)
@[simp] theorem hostWrites_activity : (hostWrites m s).activity = s.activity := by cases m <;> rfl
@[simp] theorem hostWrites_cfg : (hostWrites m s).cfg = s.cfg := by cases m <;> rfl
@[simp] theorem hostWrites_result : (hostWrites m s).result = s.result := by cases m <;> rfl
@[simp] theorem hostWrites_v : (hostWrites m s).v = s.v := by cases m <;> rfl
@[simp] theorem hostWrites_k : (hostWrites m s).k = s.k := by cases m <;> rfl
@[simp] theorem hostWrites_i : (hostWrites m s).i = s.i := by cases m <;> rfl
end

/-- All that a move of the host can do: it is a start with its duties done and so the operation, it is a reset, or it writes
what it names. -/
theorem applyMove_next {m : HostMove} {s t : State} (h : applyMove m s = .next t) :
    (m = .start ∧ exec s.current s = .next t) ∨ (m = .reset ∧ t = s.resetCodec) ∨ t = hostWrites m s := by
  cases m with
  | start =>
    obtain ⟨-, hstart⟩ | ⟨-, -, -, hstart⟩ | ⟨-, hstart⟩ := startOp_cases s s.current
    · cases hstart.symm.trans h
    · cases hstart.symm.trans h
    · exact .inl ⟨rfl, hstart.symm.trans h⟩
  | reset => exact .inr (.inl ⟨rfl, (Host.Outcome.next.inj h).symm⟩)
  | setOp op => exact .inr (.inr (Host.Outcome.next.inj h).symm)
  | setLen n => exact .inr (.inr (Host.Outcome.next.inj h).symm)
  | setCap n => exact .inr (.inr (Host.Outcome.next.inj h).symm)
  | giveSrc base => exact .inr (.inr (Host.Outcome.next.inj h).symm)
  | giveDst base => exact .inr (.inr (Host.Outcome.next.inj h).symm)
  | writeByte a b => exact .inr (.inr (Host.Outcome.next.inj h).symm)

theorem step_of_running {s : State} (h : s.activity = .running) : step s = resume s := by
  rw [step, h]

theorem step_of_no_move {s : State} (h : s.activity = .idle) (hhost : s.host = []) : step s = .next s := by
  rw [step, h, hhost]

theorem step_of_move {s : State} {m : HostMove} {rest : List HostMove} (h : s.activity = .idle) (hhost : s.host = m :: rest) :
    step s = hostMove m { s with host := rest } := by
  rw [step, h, hhost]

/-- A move that takes effect has written no length that LEN_W bits do not hold. -/
theorem hostMove_next {m : HostMove} {s t : State} (h : hostMove m s = .next t) :
    m.wf s.cfg = true ∧ applyMove m s = .next t := by
  unfold hostMove at h
  split_ifs at h with hwf
  exact ⟨hwf, h⟩

/-- All that a step can do. -/
theorem step_next {s t : State} (h : step s = .next t) :
    (s.activity = .running ∧ resume s = .next t) ∨ (s.activity = .idle ∧ t = s) ∨
    ∃ m rest, s.activity = .idle ∧ s.host = m :: rest ∧ m.wf s.cfg = true ∧
      applyMove m { s with host := rest } = .next t := by
  cases hact : s.activity with
  | running => exact .inl ⟨rfl, (step_of_running hact).symm.trans h⟩
  | idle =>
    cases hhost : s.host with
    | nil =>
      rw [step_of_no_move hact hhost] at h
      exact .inr (.inl ⟨rfl, (Host.Outcome.next.inj h).symm⟩)
    | cons m rest =>
      rw [step_of_move hact hhost] at h
      obtain ⟨hwf, hmove⟩ := hostMove_next h
      exact .inr (.inr ⟨m, rest, rfl, rfl, hwf, hact ▸ hmove⟩)

/-- R126, R27: whatever the state, a step ends with the instance idle. -/
theorem step_next_idle {s t : State} (h : step s = .next t) : t.activity = .idle := by
  obtain ⟨hrun, hresume⟩ | ⟨hidle, rfl⟩ | ⟨m, rest, hidle, -, -, hmove⟩ := step_next h
  · obtain ⟨j, out, n, r, rfl, -⟩ := resume_next hrun hresume
    exact s.ended_activity j out n r
  · exact hidle
  · obtain ⟨-, hexec⟩ | ⟨-, rfl⟩ | rfl := applyMove_next hmove
    · obtain ⟨out, n, r, rfl, -⟩ := exec_next hexec
      exact State.ended_activity _ 0 out n r
    · rfl
    · rw [hostWrites_activity]
      exact hidle

/-- A legal end keeps the invariant. -/
theorem State.Inv.ended {s : State} (h : s.Inv) {j n : Nat} {out : List Byte} {r : Result}
    (hlegal : s.LegalEnd j out n r) : (s.ended j out n r).Inv where
  cfg := h.cfg
  mem := State.ended_mem_wf j out n r h.mem
  len := h.len
  cap := h.cap
  result := by
    rintro r' ⟨⟩
    obtain ⟨-, -, hr⟩ := hlegal
    exact hr h.len h.cap
  idle := fun _ => s.atRest_ended j out n r
  running := fun hrun => by cases hrun

theorem State.Inv.resetCodec {s : State} (h : s.Inv) : s.resetCodec.Inv where
  cfg := h.cfg
  mem := h.mem
  len := Config.fits_zero s.cfg
  cap := Config.fits_zero s.cfg
  result := fun r hr => by cases hr
  idle := fun _ => ⟨rfl, rfl, rfl⟩
  running := fun hrun => by cases hrun

theorem State.Inv.dropMove {s : State} (h : s.Inv) (rest : List HostMove) : State.Inv { s with host := rest } :=
  ⟨h.cfg, h.mem, h.len, h.cap, h.result, h.idle, h.running⟩

/-- What the host writes to an idle instance keeps the invariant, since the lengths it writes fit LEN_W. -/
theorem State.Inv.afterWrite {s : State} (h : s.Inv) {m : HostMove} (hidle : s.activity = .idle) (hwf : m.wf s.cfg = true) :
    (hostWrites m s).Inv where
  cfg := by rw [hostWrites_cfg]; exact h.cfg
  mem := by
    cases m with
    | writeByte a b => exact Memory.write_wf a b h.mem
    | setOp | setLen | setCap | giveSrc | giveDst | start | reset => exact h.mem
  len := by
    cases m with
    | setLen n => exact hwf
    | setOp | setCap | giveSrc | giveDst | writeByte | start | reset => exact h.len
  cap := by
    cases m with
    | setCap n => exact hwf
    | setOp | setLen | giveSrc | giveDst | writeByte | start | reset => exact h.cap
  result := by rw [hostWrites_result, hostWrites_cfg]; exact h.result
  idle := fun _ => by simpa only [State.AtRest, hostWrites_v, hostWrites_k, hostWrites_i] using h.idle hidle
  running := fun hrun => by
    rw [hostWrites_activity, hidle] at hrun
    cases hrun

theorem State.Inv.step {s t : State} (h : s.Inv) (hstep : step s = .next t) : t.Inv := by
  obtain ⟨hrun, hresume⟩ | ⟨-, rfl⟩ | ⟨m, rest, hidle, -, hwf, hmove⟩ := step_next hstep
  · obtain ⟨j, out, n, r, rfl, hlegal⟩ := resume_next hrun hresume
    exact h.ended (hlegal (h.running hrun))
  · exact h
  · obtain ⟨-, hexec⟩ | ⟨-, rfl⟩ | rfl := applyMove_next hmove
    · obtain ⟨out, n, r, rfl, hlegal⟩ := exec_next hexec
      exact (h.dropMove rest).ended hlegal
    · exact (h.dropMove rest).resetCodec
    · exact (h.dropMove rest).afterWrite hidle hwf

/-- R49 for the default content of ALPHA. -/
theorem defaultAlphabet_wf : defaultAlphabet.wf = true := by decide

theorem decodeTableWord_opCode (i : Instr) : decodeTableWord 8 (opCode i).toNat = some i := by
  cases i <;> rfl

theorem withFetchWord_opCode (s : State) (i : Instr) : s.withFetchWord 8 (opCode i).toNat =
    { s with op := opCode i, presented := operandsOf i, activity := .idle, host := .start :: s.host } := by
  rw [State.withFetchWord, decodeTableWord_opCode]

theorem decodeOp_opCode (i : Instr) : decodeOp (opCode i) = i := by cases i <;> rfl

theorem opCode_decodeOp (op : BitVec 2) : opCode (decodeOp op) = op := by
  revert op
  decide

/-- The command's byte reads back as the operation its OP selects (R54, R56). -/
theorem decode_opByte (op : BitVec 2) (rest : List Byte) : decode (opByte op :: rest) = .ok (decodeOp op, rest) := by
  have hlt : (opByte op).toNat < 4 := by
    rw [opByte, BitVec.toNat_setWidth_of_le (by omega)]
    exact op.isLt
  rw [decode, if_pos hlt, opByte, BitVec.setWidth_setWidth_of_le _ (by omega), BitVec.setWidth_eq]

/-- A byte below 4 is the command's byte of its own low bits. -/
theorem opByte_setWidth {b : Byte} (h : b.toNat < 4) : opByte (b.setWidth 2) = b := by
  apply BitVec.eq_of_toNat_eq
  rw [opByte, BitVec.toNat_setWidth_of_le (by omega), BitVec.toNat_setWidth]
  omega

/-- Whatever decodes is the command's byte of the operation, followed by the rest. -/
theorem eq_encode_append_of_decode {bs rest : List Byte} {i : Instr} (h : decode bs = .ok (i, rest)) :
    bs = encode i ++ rest := by
  cases bs with
  | nil => cases h
  | cons b bs =>
    rw [decode] at h
    split_ifs at h with hlt
    obtain ⟨rfl, rfl⟩ := Prod.mk.inj (Except.ok.inj h)
    rw [encode, opCode_decodeOp, opByte_setWidth hlt, List.singleton_append]

/-- R125: a busy instance starts none of the four operations. -/
theorem exec_of_running {s : State} (i : Instr) (h : s.activity = .running) : exec i s = .refused .instanceBusy := by
  cases i with
  | enclen => exact whenIdle_running _ h
  | declen => exact whenIdle_running _ h
  | encode => exact whenIdle_running _ h
  | decode => exact whenIdle_running _ h

/-- R128: with the host's duties done, the start move is the operation OP names. -/
theorem step_of_start {s : State} {rest : List HostMove} (h : s.activity = .idle) (hhost : s.host = .start :: rest)
    (hduties : s.DutiesDone (decodeOp s.op)) : step s = exec (decodeOp s.op) { s with host := rest } :=
  (step_of_move h hhost).trans (startOp_of_duties (s := { s with host := rest }) hduties)

/-- The operands `operandsOf i` are all that operation `i` needs. -/
theorem presentedFor_operandsOf (s : State) {i : Instr} (h : s.presented = operandsOf i) : s.PresentedFor i := by
  rw [← covers_iff, h]
  cases i <;> rfl

end Sys2Proof.Machine

namespace Sys2Proof.Proofs

open Sys2Proof Sys2Proof.Machine

/-- Settles O51: a running instance comes to a legal end, an idle one to a legal end, a reset or a write of the host, and each
of these keeps the invariant. -/
theorem stepKeepsTheInvariant : Obligations.StepKeepsTheInvariant := by
  unfold Obligations.StepKeepsTheInvariant
  intro s t h hstep
  exact h.step hstep

/-- Settles O50: the default alphabet meets R49; every other part of the invariant holds of zero and empty registers. -/
theorem resetMeetsTheInvariant : Obligations.ResetMeetsTheInvariant where
  cfg := congrArg (((none : Option Nat) != some 0) && ·) defaultAlphabet_wf
  mem := .nil
  len := rfl
  cap := rfl
  result := fun r hr => by cases hr
  idle := fun _ => ⟨rfl, rfl, rfl⟩
  running := fun hrun => by cases hrun

/-- Settles O52: every operation comes to an end, and no move of the host but the start changes the activity. -/
theorem everyStepEndsIdle : Obligations.EveryStepEndsIdle := by
  unfold Obligations.EveryStepEndsIdle
  intro s t h
  exact step_next_idle h

/-- Settles O7: the running operation comes to an end that keeps inside DST[0..CAP), since it had passed its checks. -/
theorem runningOperationTakesNoHostMove : Obligations.RunningOperationTakesNoHostMove := by
  unfold Obligations.RunningOperationTakesNoHostMove
  intro s t hrun hprogress hstep
  rw [step_of_running hrun] at hstep
  obtain ⟨j, out, n, r, rfl, hlegal⟩ := resume_next hrun hstep
  obtain ⟨hout, hn, -⟩ := hlegal hprogress
  exact ⟨s.sameCommand_ended j out n r, rfl, s.sameMemoryBut_ended r hout hn⟩

/-- Settles O1, by evaluation of the six commands. -/
theorem commandBytesNameTheFourOperations : Obligations.CommandBytesNameTheFourOperations := by
  unfold Obligations.CommandBytesNameTheFourOperations
  decide

/-- Settles O2: OP and its byte determine each other, and so do OP and its operation. -/
theorem commandDecodeAndEncodeAgree : Obligations.CommandDecodeAndEncodeAgree := by
  unfold Obligations.CommandDecodeAndEncodeAgree
  refine ⟨fun i rest => ?_, fun bs i rest => eq_encode_append_of_decode, opCode_decodeOp, decodeOp_opCode⟩
  rw [encode, List.singleton_append, decode_opByte, decodeOp_opCode]

/-- Settles O3: the start move with the duties done is the operation; presenting a command presents its operands and leaves
the start as the next move. -/
theorem stepRunsTheOperationThatOpNames : Obligations.StepRunsTheOperationThatOpNames := by
  unfold Obligations.StepRunsTheOperationThatOpNames
  refine ⟨fun s rest i hidle hhost hdecode _ hduties => ?started, fun s i hfilled => ?presented⟩
  case started =>
    rw [decode_opByte] at hdecode
    obtain ⟨rfl, -⟩ := Prod.mk.inj (Except.ok.inj hdecode)
    exact step_of_start hidle hhost hduties
  case presented =>
    rw [withFetchWord_opCode, step_of_start rfl rfl]
    · simp only [decodeOp_opCode]
    · simp only [decodeOp_opCode]
      exact ⟨presentedFor_operandsOf _ rfl, hfilled⟩

/-- Settles O4: with an empty list of moves the step answers the state itself. -/
theorem idleInstanceWaitsForTheHost : Obligations.IdleInstanceWaitsForTheHost := by
  unfold Obligations.IdleInstanceWaitsForTheHost
  intro s hidle hhost
  exact step_of_no_move hidle hhost

/-- Settles O5: the step of an idle instance is its next move, each move with its own effect; a length is written exactly when
it fits. -/
theorem hostMovesSetWhatTheyName : Obligations.HostMovesSetWhatTheyName := by
  unfold Obligations.HostMovesSetWhatTheyName
  intro s rest hidle
  refine ⟨fun op hhost => step_of_move hidle hhost, fun n hhost => step_of_move hidle hhost,
    fun n hhost => step_of_move hidle hhost, fun a hhost => step_of_move hidle hhost,
    fun a hhost => step_of_move hidle hhost, fun a b hhost => ?writeByte, fun hhost hduties => ?start,
    fun hhost => step_of_move hidle hhost⟩
  case writeByte =>
    exact ⟨_, step_of_move hidle hhost, rfl, Memory.read_write_same s.mem a b,
      fun x hx => Memory.read_write_other s.mem b hx⟩
  case start => exact step_of_start hidle hhost hduties

/-- Settles O6: all four operations ask an idle instance first. -/
theorem busyInstanceRefusesAStart : Obligations.BusyInstanceRefusesAStart := by
  unfold Obligations.BusyInstanceRefusesAStart
  intro i s hrun
  exact exec_of_running i hrun

/-- Settles O8: C2D inverts A2C over the default alphabet, which meets R49; the registers are as reset writes them. -/
theorem resetLeavesIdleTablesAndNoResult : Obligations.ResetLeavesIdleTablesAndNoResult := by
  unfold Obligations.ResetLeavesIdleTablesAndNoResult
  exact ⟨rfl, rfl, rfl, rfl, defaultAlphabet_wf, rfl, fun _ _ => c2d_eq_some_iff (Alphabet.wf_distinct defaultAlphabet_wf)⟩

/-- Settles O9: the reset writes the codec's own registers, and the reset move is the reset. -/
theorem resetKeepsTablesAndHostMemory : Obligations.ResetKeepsTablesAndHostMemory := by
  unfold Obligations.ResetKeepsTablesAndHostMemory
  refine ⟨fun s => ⟨rfl, rfl, rfl, rfl, rfl, rfl⟩, fun s rest hidle hhost => ?_⟩
  have hstep : step s = .next { s.resetCodec with host := rest } := step_of_move hidle hhost
  exact ⟨hstep, _, hstep, rfl, rfl, rfl, rfl, rfl, rfl, rfl, rfl, rfl⟩

end Sys2Proof.Proofs
end

section
/-! PROOFS. Which start has an outcome and which outcome it is (spec/60_exceptions.md R101 to R109, R131): the refusals of the
checks, the stop at a byte that nobody filled, and the end of every operation that is ready to run. -/

namespace Sys2Proof.Machine

namespace Memory

theorem write_write_same (m : Memory) (a : Nat) (b b' : Byte) : (m.write a b).write a b' = m.write a b' := by
  induction m with
  | nil => simp [write]
  | cons c m ih =>
    by_cases hlt : a < c.1
    · simp [write, hlt]
    · by_cases heq : a = c.1
      · simp [write, heq]
      · simp [write, hlt, heq, ih]

/-- Writes to two addresses commute, as data and not only as what is read. -/
theorem write_comm (m : Memory) {x y : Nat} (b d : Byte) (h : x < y) :
    (m.write x b).write y d = (m.write y d).write x b := by
  induction m with
  | nil => simp [write, h, h.ne', h.not_gt]
  | cons c m ih =>
    obtain hyc | rfl | hyc := lt_trichotomy y c.1
    · simp [write, h, h.ne', h.not_gt, hyc, h.trans hyc]
    · simp [write, h, h.ne', h.not_gt]
    · obtain hxc | rfl | hxc := lt_trichotomy x c.1
      · simp [write, hxc, h.ne', h.not_gt, hyc.ne', hyc.not_gt]
      · simp [write, hyc.ne', hyc.not_gt]
      · simp [write, hxc.ne', hxc.not_gt, hyc.ne', hyc.not_gt, ih]

theorem writeList_write_comm (m : Memory) {x a : Nat} (b : Byte) (bs : List Byte) (h : x < a) :
    (m.writeList a bs).write x b = (m.write x b).writeList a bs := by
  induction bs generalizing m a with
  | nil => rfl
  | cons d bs ih => rw [writeList, writeList, ih (m.write a d) (by omega), write_comm m b d h]

/-- Bytes written over bytes as many leave nothing of them. -/
theorem writeList_writeList_of_length_eq (m : Memory) (a : Nat) {xs ys : List Byte} (h : xs.length = ys.length) :
    (m.writeList a xs).writeList a ys = m.writeList a ys := by
  induction xs generalizing m a ys with
  | nil => rw [List.eq_nil_of_length_eq_zero h.symm]; rfl
  | cons x xs ih =>
    cases ys with
    | nil => cases h
    | cons y ys =>
      rw [writeList, writeList, writeList_write_comm _ y xs (by omega), write_write_same, ih _ _ (Nat.succ.inj h), writeList]

end Memory

/-- R90: the free values leave nothing of what the run had written before them. -/
theorem State.forgetDst_dstWrite (s : State) {out : List Byte} {n : Nat} (h : out.length = n) :
    (s.dstWrite 0 out).forgetDst n = s.forgetDst n := by
  have hmem := Memory.writeList_writeList_of_length_eq s.mem (s.dstBase + 0) (xs := out) (ys := freeBytes s.draws n)
    (by rw [freeBytes_length, h])
  simp only [State.forgetDst, State.dstWrite, hmem]

/-- R90, R107: what a DECODE past its checks answers when SRC has a first invalid byte. -/
theorem exec_decode_invalid {s : State} {p : Nat} {b : Byte} (h : s.DecodeAdmitted) (hp : s.FirstInvalid p b) :
    exec .decode s = .next ((s.forgetDst (4 * (p / 5))).raise (.invalid b)) := by
  obtain ⟨out, hout, hrun⟩ := exec_decode_of_firstInvalid h hp
  rw [hrun, s.forgetDst_dstWrite hout]

theorem checked_unrepresentable {s : State} {block : Nat} (need : Nat) (run : State → Out) (hdisjoint : s.overlap = false)
    (haligned : s.len % block = 0) : checked s block need false run = .refused .lengthDoesNotFit := by
  simp [checked, hdisjoint, haligned]

theorem checked_small {s : State} {block need : Nat} (run : State → Out) (hdisjoint : s.overlap = false)
    (haligned : s.len % block = 0) (hcap : s.cap < need) :
    checked s block need true run = .refused .capacityViolation := by
  simp [checked, hdisjoint, haligned, hcap]

theorem exec_encode_of_idle {s : State} (h : s.activity = .idle) :
    exec .encode s = checked s 4 (encLen s.len) (s.cfg.fits (encLen s.len)) resumeEncode := whenIdle_idle _ h

theorem exec_decode_of_idle {s : State} (h : s.activity = .idle) :
    exec .decode s = checked s 5 (decLen s.len) true resumeDecode := whenIdle_idle _ h

theorem exec_encode_of_overlap {s : State} (hidle : s.activity = .idle) (h : s.overlap = true) :
    exec .encode s = .refused .bufferOverlap :=
  (exec_encode_of_idle hidle).trans (checked_overlap _ _ _ _ h)

theorem exec_decode_of_overlap {s : State} (hidle : s.activity = .idle) (h : s.overlap = true) :
    exec .decode s = .refused .bufferOverlap :=
  (exec_decode_of_idle hidle).trans (checked_overlap _ _ _ _ h)

theorem exec_encode_of_not_fits {s : State} (hidle : s.activity = .idle) (hdisjoint : s.overlap = false)
    (haligned : s.len % 4 = 0) (hfits : s.cfg.fits (encLen s.len) = false) :
    exec .encode s = .refused .lengthDoesNotFit := by
  rw [exec_encode_of_idle hidle, hfits, checked_unrepresentable _ _ hdisjoint haligned]

theorem exec_encode_of_small {s : State} (hidle : s.activity = .idle) (hdisjoint : s.overlap = false)
    (haligned : s.len % 4 = 0) (hfits : s.cfg.fits (encLen s.len) = true) (hcap : s.cap < encLen s.len) :
    exec .encode s = .refused .capacityViolation := by
  rw [exec_encode_of_idle hidle, hfits, checked_small _ hdisjoint haligned hcap]

theorem exec_decode_of_small {s : State} (hidle : s.activity = .idle) (hdisjoint : s.overlap = false)
    (haligned : s.len % 5 = 0) (hcap : s.cap < decLen s.len) : exec .decode s = .refused .capacityViolation := by
  rw [exec_decode_of_idle hidle, checked_small _ hdisjoint haligned hcap]

theorem exec_enclen_of_not_fits {s : State} (hidle : s.activity = .idle) (hfits : s.cfg.fits (encLen s.len) = false) :
    exec .enclen s = .refused .lengthDoesNotFit := by
  rw [exec_enclen_of_idle hidle, enclenStep, hfits]
  rfl

/-- R35: an ENCODE that passed its checks stops with a fault when some byte of SRC was never filled. -/
theorem exec_encode_of_absent {s : State} {j : Nat} (h : s.EncodeAdmitted) (hj : j < s.len) (habsent : s.srcByte j = none) :
    exec .encode s = .fault .sourceByteAbsent := by
  have ⟨_, haligned, _, hcap, hdisjoint⟩ := h
  rw [encLen] at hcap
  rw [exec_encode_of_admitted h]
  refine drive_encode_absent (s.len / 4) s.begin j rfl (Nat.zero_add _) (by omega) ?_ fun x y hx hy => ?_
  · rwa [State.begin_k, Nat.mul_zero, Nat.zero_add, State.begin_srcByte]
  · exact disjoint_of_overlap hdisjoint (by omega) (by omega)

theorem State.exists_absent_of_not_filled {s : State} (h : ¬ s.Filled) : ∃ j, j < s.len ∧ s.srcByte j = none := by
  simpa only [State.Filled, not_forall, Option.not_isSome_iff_eq_none, exists_prop] using h

/-- What a filled source holds, as a list. -/
theorem State.Filled.exists_srcHolds {s : State} (h : s.Filled) : ∃ bs : List Byte, s.SrcHolds bs := by
  have hbyte : ∀ j : Fin s.len, ∃ b, s.srcByte j = some b := fun j => Option.isSome_iff_exists.1 (h j j.isLt)
  choose byteAt hsrc using hbyte
  refine ⟨List.ofFn byteAt, List.length_ofFn.symm, fun j hj => ?_⟩
  rw [List.length_ofFn] at hj
  rw [List.getElem?_ofFn, dif_pos hj, hsrc ⟨j, hj⟩]

/-- An ENCODE that is ready ends with LENGTH, or with the text of its source written. -/
theorem exec_encode_of_ready {s : State} (h : s.Ready .encode) :
    (s.len % 4 ≠ 0 ∧ exec .encode s = .next (s.raise .length)) ∨
    (s.EncodeAdmitted ∧ ∃ bs, s.SrcHolds bs ∧
      exec .encode s = .next ((s.dstWrite 0 (encodeBuffer s.cfg.alphabet bs)).finish (success (encLen s.len)))) := by
  obtain ⟨hidle, hdisjoint, hready⟩ := h
  by_cases haligned : s.len % 4 = 0
  · obtain ⟨hadm, hfilled⟩ := hready haligned
    obtain ⟨bs, hsrc⟩ := hfilled.exists_srcHolds
    exact .inr ⟨hadm, bs, hsrc, exec_encode_of_srcHolds hadm hsrc⟩
  · exact .inl ⟨haligned, exec_encode_of_misaligned hidle hdisjoint haligned⟩

/-- An ENCODE that is not ready stops: a check refuses it, or a byte of its source was never filled. -/
theorem exec_encode_of_not_ready {s : State} (h : ¬ s.Ready .encode) :
    (∃ r, exec .encode s = .refused r) ∨
    (exec .encode s = .fault .sourceByteAbsent ∧ ∃ j, j < s.len ∧ s.srcByte j = none) := by
  cases hact : s.activity with
  | running => exact .inl ⟨_, exec_of_running .encode hact⟩
  | idle =>
    cases hdisjoint : s.overlap with
    | true => exact .inl ⟨_, exec_encode_of_overlap hact hdisjoint⟩
    | false =>
      by_cases haligned : s.len % 4 = 0
      · cases hfits : s.cfg.fits (encLen s.len) with
        | false => exact .inl ⟨_, exec_encode_of_not_fits hact hdisjoint haligned hfits⟩
        | true =>
          by_cases hcap : s.cap < encLen s.len
          · exact .inl ⟨_, exec_encode_of_small hact hdisjoint haligned hfits hcap⟩
          · have hadm : s.EncodeAdmitted := ⟨hact, haligned, hfits, Nat.le_of_not_lt hcap, hdisjoint⟩
            obtain ⟨j, hj, habsent⟩ := State.exists_absent_of_not_filled fun hfilled =>
              h ⟨hact, hdisjoint, fun _ => ⟨hadm, hfilled⟩⟩
            exact .inr ⟨exec_encode_of_absent hadm hj habsent, j, hj, habsent⟩
      · exact absurd ⟨hact, hdisjoint, fun hal => absurd hal haligned⟩ h

/-- A byte that C2D has no digit for is not valid where it stands in SRC. -/
theorem State.not_valid_of_invalid {s : State} {p : Nat} {b : Byte} (hbyte : s.srcByte p = some b)
    (hb : c2d s.cfg.alphabet b = none) : ¬ ((s.srcByte p).bind (c2d s.cfg.alphabet)).isSome = true := by
  rw [hbyte, Option.bind_some, hb]
  exact Bool.false_ne_true

theorem State.not_valid_of_absent {s : State} {p : Nat} (habsent : s.srcByte p = none) :
    ¬ ((s.srcByte p).bind (c2d s.cfg.alphabet)).isSome = true := by
  rw [habsent]
  exact Bool.false_ne_true

theorem State.Filled.ne_none {s : State} (h : s.Filled) {j : Nat} (hj : j < s.len) : s.srcByte j ≠ none :=
  Option.isSome_iff_ne_none.1 (h j hj)

/-- A source with a byte that nobody filled before any invalid one is not one that DECODE can read. -/
theorem State.not_readable_of_absent {s : State} {p : Nat} (hp : p < s.len) (hbefore : s.ValidTo p)
    (habsent : s.srcByte p = none) : ¬ (s.Filled ∨ ∃ q b, s.FirstInvalid q b) := by
  rintro (hfilled | ⟨q, b, -, hbyte, hb, hvalid⟩)
  · exact hfilled.ne_none hp habsent
  · obtain hlt | rfl | hlt := lt_trichotomy q p
    · exact State.not_valid_of_invalid hbyte hb (hbefore q hlt)
    · cases habsent.symm.trans hbyte
    · exact State.not_valid_of_absent habsent (hvalid p hlt)

/-- What a source valid throughout holds and decodes to. -/
theorem State.ValidTo.exists_decoded {s : State} (h : s.ValidTo s.len) (hadm : s.DecodeAdmitted) :
    ∃ cs bs : List Byte, s.SrcHolds cs ∧ decodeBuffer s.cfg.alphabet cs = .ok bs := by
  have ⟨_, haligned, _⟩ := hadm
  obtain ⟨cs, hlen, hsrc, hcs⟩ := h.exists_list
  obtain ⟨bs, hbs⟩ := decodeBuffer_valid (cs.length / 5) (by omega) hcs
  exact ⟨cs, bs, ⟨hlen.symm, hlen ▸ hsrc⟩, hbs⟩

/-- A DECODE that is ready ends with LENGTH, or with the bytes of its valid source written, or at its first invalid byte. -/
theorem exec_decode_of_ready {s : State} (h : s.Ready .decode) :
    (s.len % 5 ≠ 0 ∧ exec .decode s = .next (s.raise .length)) ∨
    (s.DecodeAdmitted ∧ s.ValidTo s.len ∧ ∃ cs bs, s.SrcHolds cs ∧ decodeBuffer s.cfg.alphabet cs = .ok bs ∧
      exec .decode s = .next ((s.dstWrite 0 bs).finish (success (decLen s.len)))) ∨
    (s.DecodeAdmitted ∧ ∃ p b, s.FirstInvalid p b ∧
      exec .decode s = .next ((s.forgetDst (4 * (p / 5))).raise (.invalid b))) := by
  obtain ⟨hidle, hdisjoint, hready⟩ := h
  by_cases haligned : s.len % 5 = 0
  · obtain ⟨hadm, hreadable⟩ := hready haligned
    obtain hvalid | ⟨p, hp, hbefore, habsent⟩ | ⟨p, b, hfirst⟩ := s.source_cases
    · obtain ⟨cs, bs, hcs, hbs⟩ := hvalid.exists_decoded hadm
      exact .inr (.inl ⟨hadm, hvalid, cs, bs, hcs, hbs, exec_decode_of_srcHolds hadm hcs hbs⟩)
    · exact absurd hreadable (State.not_readable_of_absent hp hbefore habsent)
    · exact .inr (.inr ⟨hadm, p, b, hfirst, exec_decode_invalid hadm hfirst⟩)
  · exact .inl ⟨haligned, exec_decode_of_misaligned hidle hdisjoint haligned⟩

/-- A DECODE that is not ready stops: a check refuses it, or it reaches a byte of its source that was never filled. -/
theorem exec_decode_of_not_ready {s : State} (h : ¬ s.Ready .decode) :
    (∃ r, exec .decode s = .refused r) ∨
    (exec .decode s = .fault .sourceByteAbsent ∧ ∃ j, j < s.len ∧ s.srcByte j = none) := by
  cases hact : s.activity with
  | running => exact .inl ⟨_, exec_of_running .decode hact⟩
  | idle =>
    cases hdisjoint : s.overlap with
    | true => exact .inl ⟨_, exec_decode_of_overlap hact hdisjoint⟩
    | false =>
      by_cases haligned : s.len % 5 = 0
      · by_cases hcap : s.cap < decLen s.len
        · exact .inl ⟨_, exec_decode_of_small hact hdisjoint haligned hcap⟩
        · have hadm : s.DecodeAdmitted := ⟨hact, haligned, Nat.le_of_not_lt hcap, hdisjoint⟩
          have hunreadable : ¬ (s.Filled ∨ ∃ p b, s.FirstInvalid p b) := fun hreadable =>
            h ⟨hact, hdisjoint, fun _ => ⟨hadm, hreadable⟩⟩
          obtain hvalid | ⟨p, hp, hbefore, habsent⟩ | hfirst := s.source_cases
          · refine absurd (.inl fun j hj => ?_) hunreadable
            obtain ⟨d, hd⟩ := Option.isSome_iff_exists.1 (hvalid j hj)
            obtain ⟨c, hc, -⟩ := Option.bind_eq_some_iff.1 hd
            rw [hc, Option.isSome_some]
          · exact .inr ⟨exec_decode_of_absent hadm hp hbefore habsent, p, hp, habsent⟩
          · exact absurd (.inr hfirst) hunreadable
      · exact absurd ⟨hact, hdisjoint, fun hal => absurd hal haligned⟩ h

/-- Whatever the operation, a start that is not ready stops. -/
theorem exec_of_not_ready {i : Instr} {s : State} (h : ¬ s.Ready i) :
    (∃ r, exec i s = .refused r) ∨
    (exec i s = .fault .sourceByteAbsent ∧ (i = .encode ∨ i = .decode) ∧ ∃ j, j < s.len ∧ s.srcByte j = none) := by
  cases hact : s.activity with
  | running => exact .inl ⟨_, exec_of_running i hact⟩
  | idle =>
    cases i with
    | enclen =>
      cases hfits : s.cfg.fits (encLen s.len) with
      | false => exact .inl ⟨_, exec_enclen_of_not_fits hact hfits⟩
      | true => exact absurd ⟨hact, hfits⟩ h
    | declen => exact absurd hact h
    | encode =>
      obtain hrefused | ⟨hfault, habsent⟩ := exec_encode_of_not_ready h
      · exact .inl hrefused
      · exact .inr ⟨hfault, .inl rfl, habsent⟩
    | decode =>
      obtain hrefused | ⟨hfault, habsent⟩ := exec_decode_of_not_ready h
      · exact .inl hrefused
      · exact .inr ⟨hfault, .inr rfl, habsent⟩

/-- Only a start that is ready has an outcome. -/
theorem ready_of_exec_next {i : Instr} {s t : State} (h : exec i s = .next t) : s.Ready i := by
  by_contra hready
  obtain ⟨r, hrefused⟩ | ⟨hfault, -⟩ := exec_of_not_ready hready
  · cases hrefused.symm.trans h
  · cases hfault.symm.trans h

/-- A start that is ready has an outcome, and the instance is idle after it. -/
theorem exec_of_ready {i : Instr} {s : State} (h : s.Ready i) : ∃ t, exec i s = .next t ∧ t.activity = .idle := by
  cases i with
  | enclen =>
    obtain ⟨hidle, hfits⟩ := h
    exact ⟨_, (exec_enclen_of_idle hidle).trans (enclenStep_of_fits hfits), rfl⟩
  | declen => exact ⟨_, exec_declen_of_idle h, rfl⟩
  | encode =>
    obtain ⟨-, hrun⟩ | ⟨-, bs, -, hrun⟩ := exec_encode_of_ready h
    · exact ⟨_, hrun, rfl⟩
    · exact ⟨_, hrun, rfl⟩
  | decode =>
    obtain ⟨-, hrun⟩ | ⟨-, -, cs, bs, -, -, hrun⟩ | ⟨-, p, b, -, hrun⟩ := exec_decode_of_ready h
    · exact ⟨_, hrun, rfl⟩
    · exact ⟨_, hrun, rfl⟩
    · exact ⟨_, hrun, rfl⟩

/-- An operation whose source is filled never reads a byte without a value. -/
theorem exec_ne_fault_of_filled {i : Instr} {s : State} (r : Fault) (h : i = .encode ∨ i = .decode → s.Filled) :
    exec i s ≠ .fault r := by
  intro hfault
  by_cases hready : s.Ready i
  · obtain ⟨t, hnext, -⟩ := exec_of_ready hready
    cases hnext.symm.trans hfault
  · obtain ⟨r', hrefused⟩ | ⟨-, hi, j, hj, habsent⟩ := exec_of_not_ready hready
    · cases hrefused.symm.trans hfault
    · exact (h hi).ne_none hj habsent

theorem startOp_ne_fault (s : State) (i : Instr) (r : Fault) : s.startOp i ≠ .fault r := by
  obtain ⟨-, hstart⟩ | ⟨-, -, -, hstart⟩ | ⟨⟨-, hfilled⟩, hstart⟩ := startOp_cases s i
  · rw [hstart]
    simp
  · rw [hstart]
    simp
  · rw [hstart]
    exact exec_ne_fault_of_filled r hfilled

/-- R35, R128: no move of the host faults, since a start on a source that is not filled is refused. -/
theorem hostMove_ne_fault (m : HostMove) (s : State) (r : Fault) : hostMove m s ≠ .fault r := by
  unfold hostMove
  split_ifs
  · cases m with
    | start => exact startOp_ne_fault s s.current r
    | setOp | setLen | setCap | giveSrc | giveDst | writeByte | reset => exact fun h => by cases h
  · simp

theorem step_ne_fault_of_idle {s : State} (r : Fault) (h : s.activity = .idle) : step s ≠ .fault r := by
  cases hhost : s.host with
  | nil =>
    rw [step_of_no_move h hhost]
    simp
  | cons m rest =>
    rw [step_of_move h hhost]
    exact hostMove_ne_fault m _ r

/-- R106: on an idle instance the end of an operation changes the result registers, the working registers and the record. -/
theorem State.finish_of_idle {s : State} (h : s.activity = .idle) (r : Result) : s.finish r =
    { s with
      result := some r, v := State.reset.v, k := State.reset.k, i := State.reset.i,
      presented := State.reset.presented } := by
  rw [State.finish, h]

theorem State.finish_of_atRest {s : State} (h : s.activity = .idle) (hrest : s.AtRest) (r : Result) : s.finish r =
    { s with result := some r, presented := State.reset.presented } := by
  obtain ⟨hv, hk, hi⟩ := hrest
  rw [State.finish, h, ← hv, ← hk, ← hi]

end Sys2Proof.Machine

namespace Sys2Proof.Proofs

open Sys2Proof Sys2Proof.Machine

/-- Settles O48: a start that is ready comes to the end its length and its source give; one that is not is stopped by a check
or at a byte without a value, which no start move reaches. -/
theorem readyOperationsComplete : Obligations.ReadyOperationsComplete := by
  unfold Obligations.ReadyOperationsComplete
  refine ⟨fun i s hready => ?ready, fun i s => exec_of_not_ready, fun s r => step_ne_fault_of_idle r⟩
  case ready =>
    obtain ⟨t, hnext, hidle⟩ := exec_of_ready hready
    refine ⟨t, hnext, hidle, ?_⟩
    cases i with
    | enclen =>
      obtain ⟨-, -, rfl⟩ := exec_enclen_next hnext
      rfl
    | declen =>
      obtain ⟨-, rfl⟩ := exec_declen_next hnext
      rfl
    | encode =>
      obtain ⟨hmisaligned, hrun⟩ | ⟨⟨-, haligned, -⟩, bs, -, hrun⟩ := exec_encode_of_ready hready
      · obtain rfl := Host.Outcome.next.inj (hrun.symm.trans hnext)
        exact ⟨fun haligned => absurd haligned hmisaligned, fun _ => rfl⟩
      · obtain rfl := Host.Outcome.next.inj (hrun.symm.trans hnext)
        exact ⟨fun _ => rfl, fun hmisaligned => absurd haligned hmisaligned⟩
    | decode =>
      obtain ⟨hmisaligned, hrun⟩ | ⟨⟨-, haligned, -⟩, hvalid, cs, bs, -, -, hrun⟩ |
        ⟨⟨-, haligned, -⟩, p, b, ⟨hp, hbyte, hb, -⟩, hrun⟩ := exec_decode_of_ready hready
      · obtain rfl := Host.Outcome.next.inj (hrun.symm.trans hnext)
        exact ⟨fun _ => rfl, fun haligned => absurd haligned hmisaligned, fun haligned => absurd haligned hmisaligned⟩
      · obtain rfl := Host.Outcome.next.inj (hrun.symm.trans hnext)
        exact ⟨fun hmisaligned => absurd haligned hmisaligned, fun _ _ => rfl,
          fun _ ⟨j, b, hj, hbyte, hb⟩ => absurd (hvalid j hj) (State.not_valid_of_invalid hbyte hb)⟩
      · obtain rfl := Host.Outcome.next.inj (hrun.symm.trans hnext)
        exact ⟨fun hmisaligned => absurd haligned hmisaligned,
          fun _ hvalid => absurd (hvalid p hp) (State.not_valid_of_invalid hbyte hb), fun _ _ => rfl⟩

/-- Settles O35: the run ends at the first invalid byte, and its free values hide the blocks written before it. -/
theorem invalidSymbolEndsDecode : Obligations.InvalidSymbolEndsDecode := by
  unfold Obligations.InvalidSymbolEndsDecode
  intro s p b hadm hfirst
  have hend : exec .decode s = .next (s.ended 0 [] (4 * (p / 5)) ⟨0, .invalid b⟩) := exec_decode_invalid hadm hfirst
  exact ⟨_, hend, rfl, rfl, rfl, rfl, s.sameMemoryBut_ended _ (Nat.zero_le _) le_rfl,
    fun j hj => s.dstByte_ended_of_lt 0 [] _ hj, rfl, s.sameCommand_ended _ _ _ _⟩

/-- Settles O32: ENCLEN is refused at its one computation, ENCODE at the check after the length's, unless the buffers overlap. -/
theorem encodedLengthThatDoesNotFitIsRefused : Obligations.EncodedLengthThatDoesNotFitIsRefused := by
  unfold Obligations.EncodedLengthThatDoesNotFitIsRefused
  intro s hidle hfits
  refine ⟨exec_enclen_of_not_fits hidle hfits, fun haligned => ?_⟩
  cases hoverlap : s.overlap with
  | true => exact ⟨_, exec_encode_of_overlap hidle hoverlap, fun h => by cases h⟩
  | false => exact ⟨_, exec_encode_of_not_fits hidle hoverlap haligned hfits, fun _ => rfl⟩

/-- Settles O36: the length is the first check after the overlap, and taking the error is an end of the operation. -/
theorem lengthMismatchEndsAtOnce : Obligations.LengthMismatchEndsAtOnce := by
  unfold Obligations.LengthMismatchEndsAtOnce
  intro s hidle hdisjoint
  have hraise := State.finish_of_idle hidle ⟨0, .length⟩
  have hrest : s.AtRest → _ := fun h => State.finish_of_atRest hidle h ⟨0, .length⟩
  exact ⟨fun hlen => ⟨_, exec_encode_of_misaligned hidle hdisjoint hlen, hraise, hrest, rfl, rfl, rfl⟩,
    fun hlen => ⟨_, exec_decode_of_misaligned hidle hdisjoint hlen, hraise, hrest, rfl, rfl, rfl⟩⟩

/-- Settles O37: the overlap is the first check and the capacity the last; a start looks at the operands and at the source
before either. -/
theorem smallOrOverlappingDestinationIsRefused : Obligations.SmallOrOverlappingDestinationIsRefused := by
  unfold Obligations.SmallOrOverlappingDestinationIsRefused
  intro s hidle
  refine ⟨fun h => ⟨exec_encode_of_overlap hidle h, exec_decode_of_overlap hidle h⟩,
    exec_encode_of_small hidle, exec_decode_of_small hidle,
    fun rest hhost => ⟨fun hmissing => ?notPresented, fun hpresented hi ⟨j, hj, habsent⟩ => ?notFilled⟩⟩
  case notPresented =>
    rw [step_of_move hidle hhost]
    obtain ⟨-, hstart⟩ | ⟨hpresented, -⟩ | ⟨⟨hpresented, -⟩, -⟩ :=
      startOp_cases { s with host := rest } (decodeOp s.op)
    · exact hstart
    · exact absurd hpresented hmissing
    · exact absurd hpresented hmissing
  case notFilled =>
    rw [step_of_move hidle hhost]
    obtain ⟨hmissing, -⟩ | ⟨-, -, -, hstart⟩ | ⟨⟨-, hfilled⟩, -⟩ :=
      startOp_cases { s with host := rest } (decodeOp s.op)
    · exact absurd hpresented hmissing
    · exact hstart
    · exact absurd habsent ((hfilled hi).ne_none hj)

/-- Settles O44: the one computation of a length function is an end without an error on an idle instance. -/
theorem lengthFunctionsTouchNoBuffer : Obligations.LengthFunctionsTouchNoBuffer := by
  unfold Obligations.LengthFunctionsTouchNoBuffer
  rintro s t (h | h)
  · obtain ⟨hidle, -, rfl⟩ := exec_enclen_next h
    exact ⟨State.finish_of_idle hidle _, fun hrest => State.finish_of_atRest hidle hrest _, rfl, rfl⟩
  · obtain ⟨hidle, rfl⟩ := exec_declen_next h
    exact ⟨State.finish_of_idle hidle _, fun hrest => State.finish_of_atRest hidle hrest _, rfl, rfl⟩

end Sys2Proof.Proofs
end

section
/-! PROOFS. What an operation leaves alone (spec/42_encoder.md R78; spec/43_decoder.md R90, R92; spec/40_alphabet_table.md R64)
and what its outcome is a function of (spec/10_state.md R23; spec/20_memory.md R28, R36). -/

namespace Sys2Proof.Machine

/-- ENCODE and DECODE end in a next state only where the buffers are disjoint. -/
theorem State.Ready.disjoint {s : State} {i : Instr} (h : s.Ready i) (hi : i = .encode ∨ i = .decode) :
    s.overlap = false := by
  obtain rfl | rfl := hi
  · obtain ⟨-, hdisjoint, -⟩ := h
    exact hdisjoint
  · obtain ⟨-, hdisjoint, -⟩ := h
    exact hdisjoint

/-- R21: "The codec only reads SRC". -/
theorem exec_srcByte {i : Instr} {s t : State} (h : exec i s = .next t) {j : Nat} (hj : j < s.len) :
    t.srcByte j = s.srcByte j := by
  by_cases hi : i = .encode ∨ i = .decode
  · have hdisjoint := (ready_of_exec_next h).disjoint hi
    obtain ⟨out, n, r, rfl, hlegal⟩ := exec_next h
    exact State.srcByte_ended hdisjoint hlegal hj
  · cases i with
    | enclen =>
      obtain ⟨-, -, rfl⟩ := exec_enclen_next h
      rfl
    | declen =>
      obtain ⟨-, rfl⟩ := exec_declen_next h
      rfl
    | encode => exact absurd (.inl rfl) hi
    | decode => exact absurd (.inr rfl) hi

theorem exec_sameCommand {i : Instr} {s t : State} (h : exec i s = .next t) : SameCommand s t := by
  obtain ⟨out, n, r, rfl, -⟩ := exec_next h
  exact s.sameCommand_ended 0 out n r

theorem exec_idle {i : Instr} {s t : State} (h : exec i s = .next t) : t.activity = .idle := by
  obtain ⟨out, n, r, rfl, -⟩ := exec_next h
  exact s.ended_activity 0 out n r

theorem State.SrcHolds.congr {s s' : State} {bs : List Byte} (h : s.SrcHolds bs) (hlen : s'.len = s.len)
    (hsrc : ∀ j, j < s.len → s'.srcByte j = s.srcByte j) : s'.SrcHolds bs := by
  obtain ⟨hbs, hbytes⟩ := h
  exact ⟨hlen.trans hbs, fun j hj => (hsrc j (hbs ▸ hj)).trans (hbytes j hj)⟩

theorem State.FirstInvalid.congr {s s' : State} {p : Nat} {b : Byte} (h : s.FirstInvalid p b) (hcfg : s'.cfg = s.cfg)
    (hlen : s'.len = s.len) (hsrc : ∀ j, j < s.len → s'.srcByte j = s.srcByte j) : s'.FirstInvalid p b := by
  obtain ⟨hp, hbyte, hb, hbefore⟩ := h
  refine ⟨by rwa [hlen], (hsrc p hp).trans hbyte, by rwa [hcfg], fun j hj => ?_⟩
  rw [hsrc j (hj.trans hp), hcfg]
  exact hbefore j hj

theorem State.Filled.congr {s s' : State} (h : s.Filled) (hlen : s'.len = s.len)
    (hsrc : ∀ j, j < s.len → s'.srcByte j = s.srcByte j) : s'.Filled := fun j hj => by
  rw [hlen] at hj
  rw [hsrc j hj]
  exact h j hj

theorem State.Ready.encodeAdmitted {s : State} (h : s.Ready .encode) (haligned : s.len % 4 = 0) : s.EncodeAdmitted := by
  obtain ⟨-, -, hready⟩ := h
  exact (hready haligned).1

theorem State.Ready.decodeAdmitted {s : State} (h : s.Ready .decode) (haligned : s.len % 5 = 0) : s.DecodeAdmitted := by
  obtain ⟨-, -, hready⟩ := h
  exact (hready haligned).1

/-- An idle instance with the command and the source of one that is ready is ready too. -/
theorem State.Ready.of_sameCommand {i : Instr} {s t : State} (h : s.Ready i) (hcommand : SameCommand s t)
    (hidle : t.activity = .idle) (hsrc : ∀ j, j < s.len → t.srcByte j = s.srcByte j) : t.Ready i := by
  obtain ⟨hcfg, -, hlen, hcap, hsrcBase, hdstBase, -⟩ := hcommand
  have hoverlap : t.overlap = s.overlap := by simp only [State.overlap, hlen, hcap, hsrcBase, hdstBase]
  cases i with
  | enclen =>
    obtain ⟨-, hfits⟩ := h
    exact ⟨hidle, by rwa [hcfg, hlen]⟩
  | declen => exact hidle
  | encode =>
    obtain ⟨-, hdisjoint, hready⟩ := h
    refine ⟨hidle, hoverlap.trans hdisjoint, fun haligned => ?_⟩
    obtain ⟨⟨-, -, hfits, henough, -⟩, hfilled⟩ := hready (hlen ▸ haligned)
    exact ⟨⟨hidle, haligned, by rwa [hcfg, hlen], by rwa [hlen, hcap], hoverlap.trans hdisjoint⟩, hfilled.congr hlen hsrc⟩
  | decode =>
    obtain ⟨-, hdisjoint, hready⟩ := h
    refine ⟨hidle, hoverlap.trans hdisjoint, fun haligned => ?_⟩
    obtain ⟨⟨-, -, henough, -⟩, hreadable⟩ := hready (hlen ▸ haligned)
    refine ⟨⟨hidle, haligned, by rwa [hlen, hcap], hoverlap.trans hdisjoint⟩,
      hreadable.imp (fun hfilled => hfilled.congr hlen hsrc) ?_⟩
    rintro ⟨p, b, hfirst⟩
    exact ⟨p, b, hfirst.congr hcfg hlen hsrc⟩

/-- R30, R78, R92: an operation that ends without an error writes the first N bytes of DST and nothing else of host memory. -/
theorem exec_sameMemoryBut_of_success {i : Instr} {s t : State} {n : Nat} (h : exec i s = .next t) (herr : t.regErr = some 0)
    (hn : t.regN = some n) : SameMemoryBut s t s.dstBase n := by
  cases i with
  | enclen =>
    obtain ⟨-, -, rfl⟩ := exec_enclen_next h
    exact fun a _ => rfl
  | declen =>
    obtain ⟨-, rfl⟩ := exec_declen_next h
    exact fun a _ => rfl
  | encode =>
    obtain ⟨-, -, -, rfl⟩ | ⟨-, out, hout, rfl⟩ := exec_encode_next h
    · simp [Err.code] at herr
    · obtain rfl : encLen s.len = n := Option.some.inj hn
      exact s.sameMemoryBut_ended _ (by rw [encLen]; omega) (Nat.zero_le _)
  | decode =>
    obtain ⟨-, -, -, rfl⟩ | ⟨-, out, hout, rfl⟩ | ⟨-, m, b, out, -, -, -, rfl⟩ := exec_decode_next h
    · simp [Err.code] at herr
    · obtain rfl : decLen s.len = n := Option.some.inj hn
      exact s.sameMemoryBut_ended _ (by rw [decLen]; omega) (Nat.zero_le _)
    · simp [Err.code] at herr

/-- The outcomes of an operation on two states agree: the same result and, after ENCODE and DECODE without an error, the same
output. -/
def SameOutcome (i : Instr) (t t' : State) : Prop :=
  t'.result = t.result ∧ (t.regErr = some 0 → i = .encode ∨ i = .decode →
    ∀ n, t.regN = some n → ∀ j, j < n → t'.dstByte j = t.dstByte j)

theorem sameOutcome_of_raise (i : Instr) (s s' : State) {e : Err} (he : e.code ≠ 0) :
    SameOutcome i (s.raise e) (s'.raise e) :=
  ⟨rfl, fun herr => absurd (Option.some.inj herr) he⟩

/-- The same output written to two destinations reads the same there. -/
theorem sameOutcome_of_output (i : Instr) (s s' : State) {out : List Byte} {n : Nat} (hout : n ≤ out.length) :
    SameOutcome i ((s.dstWrite 0 out).finish (success n)) ((s'.dstWrite 0 out).finish (success n)) := by
  refine ⟨rfl, fun _ _ m hm j hj => ?_⟩
  obtain rfl : n = m := Option.some.inj hm
  exact (s'.dstHolds_dstWrite out j (by omega)).trans (s.dstHolds_dstWrite out j (by omega)).symm

/-- R23, R28: the outcome of an operation is a function of the parameters, LEN and the bytes of SRC. -/
theorem exec_sameOutcome {i : Instr} {s s' t : State} (hready' : s'.Ready i) (hcfg : s'.cfg = s.cfg)
    (hlen : s'.len = s.len) (hsrc : ∀ j, j < s.len → s'.srcByte j = s.srcByte j) (h : exec i s = .next t) :
    ∃ t', exec i s' = .next t' ∧ SameOutcome i t t' := by
  have hready := ready_of_exec_next h
  cases i with
  | enclen =>
    obtain ⟨-, -, rfl⟩ := exec_enclen_next h
    obtain ⟨hidle', hfits'⟩ := hready'
    refine ⟨_, (exec_enclen_of_idle hidle').trans (enclenStep_of_fits hfits'), ?_, fun _ hi => by simp at hi⟩
    rw [State.finish_result, State.finish_result, hlen]
  | declen =>
    obtain ⟨-, rfl⟩ := exec_declen_next h
    refine ⟨_, exec_declen_of_idle hready', ?_, fun _ hi => by simp at hi⟩
    rw [State.finish_result, State.finish_result, hlen]
  | encode =>
    obtain ⟨hmisaligned, hrun⟩ | ⟨⟨-, haligned, -⟩, bs, hbs, hrun⟩ := exec_encode_of_ready hready
    · obtain rfl := Host.Outcome.next.inj (hrun.symm.trans h)
      obtain ⟨hidle', hdisjoint', -⟩ := hready'
      exact ⟨_, exec_encode_of_misaligned hidle' hdisjoint' (hlen ▸ hmisaligned), sameOutcome_of_raise _ s s' (by decide)⟩
    · obtain rfl := Host.Outcome.next.inj (hrun.symm.trans h)
      have hrun' := exec_encode_of_srcHolds (hready'.encodeAdmitted (hlen ▸ haligned)) (hbs.congr hlen hsrc)
      rw [hcfg, hlen] at hrun'
      have ⟨hcount, _⟩ := hbs
      have htext := encodeBuffer_length s.cfg.alphabet bs (s.len / 4) (by omega)
      exact ⟨_, hrun', sameOutcome_of_output _ s s' (by rw [htext, encLen]; omega)⟩
  | decode =>
    obtain ⟨hmisaligned, hrun⟩ | ⟨⟨-, haligned, -⟩, -, cs, bs, hcs, hbs, hrun⟩ | ⟨⟨-, haligned, -⟩, p, b, hfirst, hrun⟩ :=
      exec_decode_of_ready hready
    · obtain rfl := Host.Outcome.next.inj (hrun.symm.trans h)
      obtain ⟨hidle', hdisjoint', -⟩ := hready'
      exact ⟨_, exec_decode_of_misaligned hidle' hdisjoint' (hlen ▸ hmisaligned), sameOutcome_of_raise _ s s' (by decide)⟩
    · obtain rfl := Host.Outcome.next.inj (hrun.symm.trans h)
      have hrun' := exec_decode_of_srcHolds (bs := bs) (hready'.decodeAdmitted (hlen ▸ haligned)) (hcs.congr hlen hsrc)
        (by rwa [hcfg])
      rw [hlen] at hrun'
      have ⟨hcount, _⟩ := hcs
      have hbytes := decodeBuffer_ok_length s.cfg.alphabet (s.len / 5) cs bs (by omega) hbs
      exact ⟨_, hrun', sameOutcome_of_output _ s s' (by rw [hbytes, decLen]; omega)⟩
    · obtain rfl := Host.Outcome.next.inj (hrun.symm.trans h)
      exact ⟨_, exec_decode_invalid (hready'.decodeAdmitted (hlen ▸ haligned)) (hfirst.congr hcfg hlen hsrc),
        sameOutcome_of_raise _ (s.forgetDst _) (s'.forgetDst _) (by simp [Err.code])⟩

/-- R36: an operation started again on its own result has the same outcome. -/
theorem exec_again {i : Instr} {s t : State} (h : exec i s = .next t) : ∃ u, exec i t = .next u ∧ SameOutcome i t u := by
  have hcommand := exec_sameCommand h
  have ⟨hcfg, _, hlen, _⟩ := hcommand
  have hsrc : ∀ j, j < s.len → t.srcByte j = s.srcByte j := fun j hj => exec_srcByte h hj
  exact exec_sameOutcome ((ready_of_exec_next h).of_sameCommand hcommand (exec_idle h) hsrc) hcfg hlen hsrc h

/-- What an operation writes once it writes again, so the second run leaves host memory as the first did. -/
theorem exec_again_sameMemory {i : Instr} {s t u : State} (h : exec i s = .next t) (hagain : exec i t = .next u)
    (hsame : SameOutcome i t u) (herr : t.regErr = some 0) : SameMemory t u := by
  obtain ⟨hres, hdst⟩ := hsame
  by_cases hi : i = .encode ∨ i = .decode
  · obtain ⟨out, n, r, rfl, -⟩ := exec_next h
    have hin := hdst herr hi r.n rfl
    have hout := exec_sameMemoryBut_of_success (n := r.n) hagain (by rw [State.regErr, hres]; exact herr)
      (by rw [State.regN, hres]; rfl)
    have ⟨_, _, _, _, _, hbase, _⟩ := exec_sameCommand hagain
    intro a
    by_cases ha : (s.ended 0 out n r).dstBase ≤ a ∧ a < (s.ended 0 out n r).dstBase + r.n
    · have hbyte := hin (a - (s.ended 0 out n r).dstBase) (by omega)
      rwa [State.dstByte, State.dstByte, hbase, Nat.add_sub_cancel' ha.1] at hbyte
    · exact hout a ha
  · cases i with
    | enclen =>
      obtain ⟨-, -, rfl⟩ := exec_enclen_next hagain
      exact fun _ => rfl
    | declen =>
      obtain ⟨-, rfl⟩ := exec_declen_next hagain
      exact fun _ => rfl
    | encode => exact absurd (.inl rfl) hi
    | decode => exact absurd (.inr rfl) hi

/-- `s` with the result registers holding `r`. -/
def State.withResult (s : State) (r : Option Result) : State := { s with result := r }

/-- The checks read no result register. -/
theorem checked_withResult (s : State) (block need : Nat) (fit : Bool) (run : State → Out) (r : Option Result)
    (h : s.overlap = false → s.len % block = 0 → fit = true → need ≤ s.cap →
      run ((s.withResult r).begin) = run s.begin) :
    checked (s.withResult r) block need fit run = checked s block need fit run := by
  have hoverlap : (s.withResult r).overlap = s.overlap := rfl
  have hlen : (s.withResult r).len = s.len := rfl
  have hcap : (s.withResult r).cap = s.cap := rfl
  unfold checked
  rw [hoverlap, hlen, hcap]
  split_ifs with hshared hmisaligned hfits hsmall
  · rfl
  · rfl
  · rfl
  · rfl
  · exact h (by simpa using hshared) (by omega) (by simpa using hfits) (by omega)

theorem exec_encode_withResult {s : State} (r : Option Result) (h : s.EncodeAdmitted) :
    exec .encode (s.withResult r) = exec .encode s := by
  have h' : (s.withResult r).EncodeAdmitted := h
  by_cases hfilled : s.Filled
  · obtain ⟨bs, hbs⟩ := hfilled.exists_srcHolds
    exact (exec_encode_of_srcHolds h' hbs).trans (exec_encode_of_srcHolds h hbs).symm
  · obtain ⟨j, hj, habsent⟩ := State.exists_absent_of_not_filled hfilled
    exact (exec_encode_of_absent h' hj habsent).trans (exec_encode_of_absent h hj habsent).symm

theorem exec_decode_withResult {s : State} (r : Option Result) (h : s.DecodeAdmitted) :
    exec .decode (s.withResult r) = exec .decode s := by
  have h' : (s.withResult r).DecodeAdmitted := h
  obtain hvalid | ⟨p, hp, hbefore, habsent⟩ | ⟨p, b, hfirst⟩ := s.source_cases
  · obtain ⟨cs, bs, hcs, hbs⟩ := hvalid.exists_decoded h
    exact (exec_decode_of_srcHolds h' hcs hbs).trans (exec_decode_of_srcHolds h hcs hbs).symm
  · exact (exec_decode_of_absent h' hp hbefore habsent).trans (exec_decode_of_absent h hp hbefore habsent).symm
  · exact (exec_decode_invalid h' hfirst).trans (exec_decode_invalid h hfirst).symm

/-- R23: no operation reads a result register. -/
theorem exec_withResult (i : Instr) (s : State) (r : Option Result) : exec i (s.withResult r) = exec i s := by
  cases hact : s.activity with
  | running => exact (exec_of_running i (s := s.withResult r) hact).trans (exec_of_running i hact).symm
  | idle =>
    cases i with
    | enclen => exact (exec_enclen_of_idle (s := s.withResult r) hact).trans (exec_enclen_of_idle hact).symm
    | declen => exact (exec_declen_of_idle (s := s.withResult r) hact).trans (exec_declen_of_idle hact).symm
    | encode =>
      rw [exec_encode_of_idle hact, ← checked_withResult s _ _ _ resumeEncode r]
      · exact exec_encode_of_idle (s := s.withResult r) hact
      · intro hdisjoint haligned hfits hcap
        have h : s.EncodeAdmitted := ⟨hact, haligned, hfits, hcap, hdisjoint⟩
        rw [← exec_encode_of_admitted h, ← exec_encode_withResult r h]
        exact (exec_encode_of_admitted (s := s.withResult r) h).symm
    | decode =>
      rw [exec_decode_of_idle hact, ← checked_withResult s _ _ _ resumeDecode r]
      · exact exec_decode_of_idle (s := s.withResult r) hact
      · intro hdisjoint haligned _ hcap
        have h : s.DecodeAdmitted := ⟨hact, haligned, hcap, hdisjoint⟩
        rw [← exec_decode_of_admitted h, ← exec_decode_withResult r h]
        exact (exec_decode_of_admitted (s := s.withResult r) h).symm

end Sys2Proof.Machine

namespace Sys2Proof.Proofs

open Sys2Proof Sys2Proof.Machine

/-- Settles O53: the text ENCODE has written is the source of DECODE, which decodes it to the bytes it was made from. -/
theorem encodeThenDecodeRestoresTheSource : Obligations.EncodeThenDecodeRestoresTheSource := by
  unfold Obligations.EncodeThenDecodeRestoresTheSource
  intro s bs out hwf hadm hsrc
  refine ⟨_, exec_encode_of_srcHolds hadm hsrc, ?_⟩
  rintro u rfl hdisjoint
  have ⟨_, haligned, _⟩ := hadm
  have hlen : s.len = bs.length := hsrc.1
  have htext : (encodeBuffer s.cfg.alphabet bs).length = 5 * (s.len / 4) :=
    encodeBuffer_length s.cfg.alphabet bs (s.len / 4) (by omega)
  have hdecoded := decodeBuffer_encodeBuffer_of_aligned (Config.wf_distinct hwf) (bs := bs) (by omega)
  have hcount : decLen (s.len / 4 * 5) = s.len := by
    rw [decLen]
    omega
  have hrun := exec_decode_of_srcHolds ⟨rfl, Nat.mul_mod_left _ 5, hcount.le, hdisjoint⟩
    ⟨(Nat.mul_comm _ _).trans htext.symm, s.dstHolds_dstWrite (encodeBuffer s.cfg.alphabet bs)⟩ hdecoded
  exact ⟨_, hrun, congrArg some hcount, rfl, fun j hj => State.dstHolds_dstWrite _ bs j hj⟩

/-- Settles O41: ENCODE ends with LENGTH and nothing written, or with five bytes a block written. -/
theorem encodeWritesOnlyItsOutput : Obligations.EncodeWritesOnlyItsOutput := by
  unfold Obligations.EncodeWritesOnlyItsOutput
  intro s t h
  obtain ⟨-, -, -, rfl⟩ | ⟨-, out, hout, rfl⟩ := exec_encode_next h
  · exact ⟨exec_sameCommand h, rfl, rfl, ⟨rfl, rfl, rfl⟩, rfl, fun herr => by simp [Err.code] at herr, fun _ _ => rfl⟩
  · exact ⟨exec_sameCommand h, rfl, rfl, ⟨rfl, rfl, rfl⟩, rfl,
      fun _ => s.sameMemoryBut_ended _ (by omega) (Nat.zero_le _), fun herr => absurd rfl herr⟩

/-- Settles O42: DECODE ends with LENGTH and nothing written, or with four bytes a block written, or at its first invalid byte
with the blocks before it free. -/
theorem decodeWritesOnlyItsOutput : Obligations.DecodeWritesOnlyItsOutput := by
  unfold Obligations.DecodeWritesOnlyItsOutput
  intro s t h
  refine ⟨exec_sameCommand h, exec_idle h, ?_⟩
  obtain ⟨-, hrun⟩ | ⟨-, -, cs, bs, ⟨hcount, -⟩, hbs, hrun⟩ | ⟨-, p, b, hfirst, hrun⟩ :=
    exec_decode_of_ready (ready_of_exec_next h)
  · obtain rfl := Host.Outcome.next.inj (hrun.symm.trans h)
    exact ⟨⟨rfl, rfl, rfl⟩, rfl, fun herr => by simp [Err.code] at herr, fun _ => ⟨fun _ => rfl, rfl⟩,
      fun herr => by simp [Err.code] at herr⟩
  · obtain rfl := Host.Outcome.next.inj (hrun.symm.trans h)
    exact ⟨⟨rfl, rfl, rfl⟩, rfl,
      fun herr => ⟨exec_sameMemoryBut_of_success h herr (State.regN_finish_success _ _), rfl⟩,
      fun herr => by simp at herr, fun herr => by simp at herr⟩
  · obtain rfl := Host.Outcome.next.inj (hrun.symm.trans h)
    exact ⟨⟨rfl, rfl, rfl⟩, rfl, fun herr => by simp [Err.code] at herr, fun herr => by simp [Err.code] at herr,
      fun _ => ⟨p, b, hfirst, rfl, s.sameMemoryBut_ended (out := []) _ (Nat.zero_le _) le_rfl⟩⟩

/-- Settles O43: every operation comes to an end that leaves the command alone, and writes inside a DST that shares no byte
with SRC. -/
theorem noOperationChangesTablesOrOperands : Obligations.NoOperationChangesTablesOrOperands := by
  unfold Obligations.NoOperationChangesTablesOrOperands
  intro i s t h
  have hcommand := exec_sameCommand h
  have ⟨hcfg, _⟩ := hcommand
  refine ⟨hcommand, fun b => by rw [hcfg], fun d => by rw [hcfg], fun j hj => exec_srcByte h hj, exec_idle h, ?_⟩
  obtain ⟨out, n, r, rfl, -⟩ := exec_next h
  rfl

/-- Settles O54: the checks read no result register, and each end of a run writes them anew. -/
theorem resultRegistersCarryNothingOver : Obligations.ResultRegistersCarryNothingOver := by
  unfold Obligations.ResultRegistersCarryNothingOver
  exact exec_withResult

/-- Settles O55: the source decides which end both runs come to, and the output is a function of it. -/
theorem outcomeDependsOnOperandsAndSourceOnly : Obligations.OutcomeDependsOnOperandsAndSourceOnly := by
  unfold Obligations.OutcomeDependsOnOperandsAndSourceOnly
  intro i s s' t _ hready' hcfg hlen hsrc h
  exact exec_sameOutcome hready' hcfg hlen hsrc h

/-- Settles O56: the first run leaves the command and the source alone, so the second has the same outcome, and it writes over
the same output. -/
theorem runningTwiceGivesTheSame : Obligations.RunningTwiceGivesTheSame := by
  unfold Obligations.RunningTwiceGivesTheSame
  intro i s t h
  obtain ⟨u, hagain, hsame⟩ := exec_again h
  exact ⟨u, hagain, hsame.1, exec_again_sameMemory h hagain hsame⟩

end Sys2Proof.Proofs
end

section
/-! PROOFS. The step views of ENCODE and DECODE (spec/42_encoder.md R80; spec/43_decoder.md R93): one block a step, and the run
of `n` steps from the start. -/

namespace Sys2Proof.Machine

theorem drive_faults {f : State → Out} {s : State} {r : Fault} (n : Nat) (h : f s = .fault r) :
    drive f (n + 1) s = .fault r := by
  rw [drive, h]

/-- More steps do not mend a run that has met a fault. -/
theorem drive_fault_of_le {f : State → Out} {n m : Nat} {s : State} {r : Fault} (h : drive f n s = .fault r) (hle : n ≤ m) :
    drive f m s = .fault r := by
  induction n generalizing m s with
  | zero => cases h
  | succ n ih =>
    obtain ⟨m, rfl⟩ : ∃ m', m = m' + 1 := ⟨m - 1, by omega⟩
    cases hstep : f s with
    | fault r' => exact (drive_faults m hstep).trans ((drive_faults n hstep).symm.trans h)
    | refused r' =>
      rw [drive, hstep] at h
      cases h
    | next t =>
      cases hact : t.activity with
      | idle =>
        rw [drive_ends n hstep hact] at h
        cases h
      | running =>
        rw [drive_goes_on n hstep hact] at h
        rw [drive_goes_on m hstep hact]
        exact ih h (by omega)

theorem encodeStep_of_block {s : State} (h : s.k < s.len / 4) : encodeStep s = encodeBlock s := if_pos h

theorem encodeStep_of_last {s : State} (h : s.k = s.len / 4) :
    encodeStep s = .next (s.finish (success (encLen s.len))) := if_neg (by omega)

theorem decodeStep_of_block {s : State} (h : s.k < s.len / 5) : decodeStep s = decodeBlock s := if_pos h

/-- No check stands between two blocks. -/
theorem encodeBlock_ne_refused (s : State) (r : Refusal) : encodeBlock s ≠ .refused r := by
  unfold encodeBlock
  split <;> simp

/-- A run of ENCODE of no more steps than blocks are left stands at a later block, or has met a byte without a value. -/
theorem drive_encode_blocks (n : Nat) {s : State} (hrun : s.activity = .running) (hk : s.k + n ≤ s.len / 4) :
    (∃ r, drive encodeStep n s = .fault r) ∨
    ∃ u, drive encodeStep n s = .next u ∧ u.activity = .running ∧ u.k = s.k + n := by
  induction n generalizing s with
  | zero => exact .inr ⟨s, rfl, hrun, rfl⟩
  | succ n ih =>
    have hstep := encodeStep_of_block (s := s) (by omega)
    cases hblock : encodeBlock s with
    | fault r => exact .inl ⟨r, drive_faults n (hstep.trans hblock)⟩
    | refused r => exact absurd hblock (encodeBlock_ne_refused s r)
    | next t =>
      obtain ⟨b0, b1, b2, b3, -, -, -, -, rfl⟩ := encodeBlock_next hblock
      rw [drive_goes_on n (hstep.trans hblock) hrun]
      have hrest := ih (s := s.encoded b0 b1 b2 b3) hrun (by rw [State.encoded_k, State.encoded_len]; omega)
      rwa [State.encoded_k, Nat.add_right_comm s.k 1 n] at hrest

/-- R80: the run that is `exec` is `LEN/4 + 1` steps of the step view. -/
theorem exec_encode_eq_drive {s : State} (h : s.EncodeAdmitted) :
    exec .encode s = drive encodeStep (s.len / 4 + 1) s.begin := exec_encode_of_admitted h

theorem exec_decode_eq_drive {s : State} (h : s.DecodeAdmitted) :
    exec .decode s = drive decodeStep (s.len / 5 + 1) s.begin := exec_decode_of_admitted h

/-- Over a filled source no step of ENCODE faults, so after `n` steps from the start the run stands at block `n`. -/
theorem drive_encode_begin {s : State} {bs : List Byte} {n : Nat} (h : s.EncodeAdmitted) (hsrc : s.SrcHolds bs)
    (hn : n ≤ s.len / 4) : ∃ u, drive encodeStep n s.begin = .next u ∧ u.activity = .running ∧ u.k = n := by
  obtain ⟨r, hfault⟩ | ⟨u, hrun, hact, hk⟩ := drive_encode_blocks n (s := s.begin) rfl (by simpa using hn)
  · have hend := exec_encode_of_srcHolds h hsrc
    rw [exec_encode_eq_drive h, drive_fault_of_le hfault (by omega)] at hend
    cases hend
  · exact ⟨u, hrun, hact, hk.trans (Nat.zero_add n)⟩

theorem decAccumulate_of_decblk_ok {al : Alphabet} {c0 c1 c2 c3 c4 : Byte} {bs : List Byte}
    (h : decblk al c0 c1 c2 c3 c4 = .ok bs) : ∃ v, decAccumulate al 0 [c0, c1, c2, c3, c4] = .ok v ∧ bs = unpack v := by
  cases hv : decAccumulate al 0 [c0, c1, c2, c3, c4] with
  | ok v => exact ⟨v, rfl, Except.ok.inj (h.symm.trans (decblk_of_ok hv))⟩
  | error b => cases h.symm.trans (decblk_of_error hv)

theorem decAccumulate_of_decblk_error {al : Alphabet} {c0 c1 c2 c3 c4 b : Byte}
    (h : decblk al c0 c1 c2 c3 c4 = .error b) : decAccumulate al 0 [c0, c1, c2, c3, c4] = .error b := by
  cases hv : decAccumulate al 0 [c0, c1, c2, c3, c4] with
  | ok v => cases h.symm.trans (decblk_of_ok hv)
  | error b' => exact congrArg Except.error (Except.error.inj ((decblk_of_error hv).symm.trans h))

/-- A memory that has bytes written at DST's byte `j` reads as before elsewhere. -/
theorem sameMemoryBut_writeList (s : State) {t : State} {j : Nat} {out : List Byte}
    (h : t.mem = s.mem.writeList (s.dstBase + j) out) : SameMemoryBut s t (s.dstBase + j) out.length := fun a ha => by
  rw [h, Memory.read_writeList_outside _ _ _ _ ha]

/-- Bytes written at DST's byte `j` read back there. -/
theorem State.dstByte_of_writeList {s t : State} {j x : Nat} {out : List Byte} (hbase : t.dstBase = s.dstBase)
    (h : t.mem = s.mem.writeList (s.dstBase + j) out) (hx : x < out.length) : t.dstByte (j + x) = out[x]? := by
  rw [State.dstByte, hbase, h, ← Nat.add_assoc, Memory.read_writeList_inside _ _ _ _ hx]

end Sys2Proof.Machine

namespace Sys2Proof.Proofs

open Sys2Proof Sys2Proof.Machine

/-- Settles O57: a filled block is written and the next one is due; past the last block the step is the end; and no step of the
run from an admitted start faults. -/
theorem stepViewOfEncode : Obligations.StepViewOfEncode := by
  unfold Obligations.StepViewOfEncode
  refine ⟨fun s b0 b1 b2 b3 hrun hk h0 h1 h2 h3 => ?block, fun s hk => ?last,
    fun s bs hadm hsrc => ⟨fun n hn => drive_encode_begin hadm hsrc hn, exec_encode_eq_drive hadm⟩⟩
  case block =>
    have hmem := s.encoded_mem b0 b1 b2 b3
    exact ⟨s.encoded b0 b1 b2 b3, (encodeStep_of_block hk).trans (encodeBlock_spec h0 h1 h2 h3), hrun, rfl, rfl, rfl,
      ⟨rfl, rfl, rfl, rfl, rfl, rfl, rfl⟩, sameMemoryBut_writeList s hmem, fun j hj => State.dstByte_of_writeList (s := s) rfl hmem hj⟩
  case last => exact ⟨_, encodeStep_of_last hk, rfl, rfl, rfl, rfl⟩

/-- Settles O58: a valid block is written and the next one is due; an invalid byte ends the run with the blocks before it free;
past the last block the step is the end. -/
theorem stepViewOfDecode : Obligations.StepViewOfDecode := by
  unfold Obligations.StepViewOfDecode
  refine ⟨fun s c0 c1 c2 c3 c4 hrun hk h0 h1 h2 h3 h4 => ⟨fun bs hok => ?valid, fun b herror => ?invalid⟩, fun s hk => ?last,
    fun s hadm => exec_decode_eq_drive hadm⟩
  case valid =>
    obtain ⟨v, hv, rfl⟩ := decAccumulate_of_decblk_ok hok
    obtain ⟨i, hblock⟩ := decodeBlock_valid hrun h0 h1 h2 h3 h4 hv
    have hmem := s.decoded_mem v i
    exact ⟨s.decoded v i, (decodeStep_of_block hk).trans hblock, hrun, rfl, rfl, ⟨rfl, rfl, rfl, rfl, rfl, rfl, rfl⟩,
      sameMemoryBut_writeList s hmem, fun j hj => State.dstByte_of_writeList (s := s) rfl hmem hj⟩
  case invalid =>
    have hsrc : ∀ j, j < 5 → s.srcByte (5 * s.k + j) = [c0, c1, c2, c3, c4][j]?
      | 0, _ => h0
      | 1, _ => h1
      | 2, _ => h2
      | 3, _ => h3
      | 4, _ => h4
    obtain ⟨v, i, hblock⟩ := decodeBlock_invalid [c0, c1, c2, c3, c4] le_rfl hsrc (decAccumulate_of_decblk_error herror)
    have hend : decodeStep s = .next (s.ended 0 [] (4 * s.k) ⟨0, .invalid b⟩) := (decodeStep_of_block hk).trans hblock
    exact ⟨_, hend, rfl, rfl, rfl, rfl, s.sameCommand_ended _ _ _ _, s.sameMemoryBut_ended _ (Nat.zero_le _) le_rfl⟩
  case last => exact ⟨_, decodeStep_of_last hk, rfl, rfl, rfl, rfl⟩

end Sys2Proof.Proofs
end

section
/-! PROOFS. The alphabet check against the conditions of R49 (spec/30_encoding.md), the number of valid bytes (R52), the reverse
table (R51), the codes of ERR (R55) and the laws of the two length functions (spec/41_length_functions.md R70). -/

namespace Sys2Proof.Machine

theorem mem_toList_iff (al : Alphabet) (b : Byte) : b ∈ al.toList ↔ ∃ d, a2c al d = b := by
  constructor
  · intro h
    obtain ⟨n, hn, rfl⟩ := List.getElem_of_mem h
    exact ⟨⟨n, by simpa using hn⟩, by simp [a2c]⟩
  · rintro ⟨d, rfl⟩
    exact a2c_mem_toList al d

/-- What every entry of the alphabet has, the character of every digit has. -/
theorem all_toList_iff (al : Alphabet) (p : Byte → Bool) : al.toList.all p = true ↔ ∀ d, p (a2c al d) = true := by
  simp only [List.all_eq_true, mem_toList_iff, forall_exists_index, forall_apply_eq_imp_iff]

/-- R49 (a): the entries are distinct exactly when A2C is injective. -/
theorem Alphabet.distinct_iff (al : Alphabet) : al.distinct = true ↔ ∀ d e : Digit, a2c al d = a2c al e → d = e := by
  constructor
  · exact fun h d e => a2c_injective h
  · intro h
    refine decide_eq_true (List.nodup_iff_injective_getElem.2 fun m n hmn => ?_)
    have hlen : al.toList.length = 85 := al.length_toList
    have heq : a2c al (m.cast hlen) = a2c al (n.cast hlen) := by simpa [a2c] using hmn
    simpa using h _ _ heq

theorem Alphabet.keepsPinned_iff (al : Alphabet) : al.keepsPinned = true ↔ ∀ p ∈ pinned, a2c al p.1 = p.2 := by
  simp only [Alphabet.keepsPinned, List.all_eq_true, beq_iff_eq]
  rfl

theorem Alphabet.inSpan_iff (al : Alphabet) :
    al.inSpan = true ↔ ∀ d, 33 ≤ (a2c al d).toNat ∧ (a2c al d).toNat ≤ 125 := by
  simp only [Alphabet.inSpan, all_toList_iff, Bool.and_eq_true, decide_eq_true_eq]
  rfl

theorem Alphabet.skipsQuote_iff (al : Alphabet) : al.skipsQuote = true ↔ ∀ d, a2c al d ≠ 34 := by
  simp only [Alphabet.skipsQuote, all_toList_iff, bne_iff_ne]

theorem Alphabet.hasGap_iff (al : Alphabet) :
    al.hasGap = true ↔ ∃ n, 33 ≤ n ∧ n ≤ 125 ∧ ∀ d, (a2c al d).toNat ≠ n := by
  simp only [Alphabet.hasGap, spanMin, spanMax, List.any_eq_true, List.mem_range, Bool.and_eq_true,
    all_toList_iff, bne_iff_ne]
  refine exists_congr fun n => ⟨fun ⟨hle, hge, hgap⟩ => ⟨of_decide_eq_true hge, by omega, hgap⟩, fun ⟨hge, hle, hgap⟩ => ?_⟩
  exact ⟨by omega, decide_eq_true hge, hgap⟩

/-- The characters whose digits C2D finds are the characters of the 85 digits. -/
theorem card_valid {al : Alphabet} (h : al.distinct = true) : Nat.card { b : Byte // (c2d al b).isSome = true } = 85 := by
  have hvalid : ∀ d, (c2d al (a2c al d)).isSome = true := fun d => by rw [c2d_a2c h, Option.isSome_some]
  have hbijective : Function.Bijective fun d : Digit => (⟨a2c al d, hvalid d⟩ : { b // (c2d al b).isSome = true }) := by
    constructor
    · intro d e he
      exact a2c_injective h (congrArg Subtype.val he)
    · rintro ⟨b, hb⟩
      obtain ⟨d, hd⟩ := Option.isSome_iff_exists.1 hb
      exact ⟨d, Subtype.ext (a2c_of_c2d hd)⟩
  rw [← Nat.card_eq_of_bijective _ hbijective, Nat.card_fin]

end Sys2Proof.Machine

namespace Sys2Proof.Proofs

open Sys2Proof Sys2Proof.Machine

/-- Settles O11: each of the five checks is its condition, read over the digits; that both ends of the span are reached follows
from the pinned digits 68 and 80. -/
theorem alphabetCheckIsTheFiveConditions : Obligations.AlphabetCheckIsTheFiveConditions := by
  unfold Obligations.AlphabetCheckIsTheFiveConditions
  refine ⟨fun al => ?_, defaultAlphabet_wf, rfl⟩
  simp only [Alphabet.wf, Bool.and_eq_true, Alphabet.distinct_iff, Alphabet.keepsPinned_iff, Alphabet.inSpan_iff,
    Alphabet.skipsQuote_iff, Alphabet.hasGap_iff]
  constructor
  · rintro ⟨⟨⟨⟨hdistinct, hpinned⟩, hspan⟩, hquote⟩, hgap⟩
    exact ⟨hdistinct, hpinned, ⟨⟨68, hpinned (68, 33) (by decide)⟩, ⟨80, hpinned (80, 125) (by decide)⟩, hspan⟩, hquote, hgap⟩
  · rintro ⟨hdistinct, hpinned, ⟨-, -, hspan⟩, hquote, hgap⟩
    exact ⟨⟨⟨⟨hdistinct, hpinned⟩, hspan⟩, hquote⟩, hgap⟩

/-- Settles O15: A2C is a bijection from the 85 digits to the valid bytes, and the others of the 256 are invalid. -/
theorem eightyFiveBytesAreValid : Obligations.EightyFiveBytesAreValid := by
  unfold Obligations.EightyFiveBytesAreValid
  intro al hwf
  have hvalid := card_valid (Alphabet.wf_distinct hwf)
  have hsum : Nat.card { b : Byte // (c2d al b).isSome = true } + Nat.card { b : Byte // ¬ (c2d al b).isSome = true } = 256 := by
    rw [← Nat.card_sum, Nat.card_congr (Equiv.sumCompl _), Nat.card_eq_fintype_card]
    exact FinEnum.card_eq_fintypeCard.symm.trans (FinEnum.card_bitVec 8)
  simp only [Option.not_isSome_iff_eq_none] at hsum
  exact ⟨hvalid, by omega⟩

/-- Settles O10, by evaluation of C2D over the 256 bytes. -/
theorem reverseTableOfTheDefaultAlphabet : Obligations.ReverseTableOfTheDefaultAlphabet := by
  unfold Obligations.ReverseTableOfTheDefaultAlphabet
  decide

/-- Settles O29, by the arithmetic of division by 4 and by 5. -/
theorem sizeLawsOfTheLengthFunctions : Obligations.SizeLawsOfTheLengthFunctions := by
  unfold Obligations.SizeLawsOfTheLengthFunctions
  simp only [encLen, decLen]
  refine ⟨fun m => ?multiples, fun n => ?anyLength, fun m n hmn => ?monotone⟩
  case multiples => omega
  case anyLength => omega
  case monotone => exact ⟨by omega, by omega⟩

/-- Settles O49: ERR has a code for each of its three kinds, and only INVALID has a payload. -/
theorem errCodesAndPayload : Obligations.ErrCodesAndPayload := by
  unfold Obligations.ErrCodesAndPayload
  intro s
  cases hres : s.result with
  | none => simp [State.regErr, State.regN, State.regEbyte, hres]
  | some r =>
    obtain ⟨n, err⟩ := r
    cases err <;> simp [State.regErr, State.regN, State.regEbyte, hres, Err.code, Err.payload]

end Sys2Proof.Proofs
end
